-- ==== Sys2Proof/Word.lean ====
section
/-!
DEFINITION. Word.lean: the words that cross the block's ports and stand in its state, at the widths of
`00_scope.md` R8 and `30_encoding.md` R41, R48. Nothing is signed (`40_checksum_unit.md` R63).
-/

namespace Sys2Proof

/-- A byte: 8 bits, unsigned (R8). `ACC`, `LEN`, a window cell, an operand and a data field of a response. -/
abbrev Byte := BitVec 8

/-- A command word `cmd[15:0]` (R41). -/
abbrev CmdWord := BitVec 16

/-- A response word `rsp[27:0]` (R48). -/
abbrev RspWord := BitVec 28

/-- The field `rsp[27:24]` (R48). -/
abbrev StatusCode := BitVec 4

end Sys2Proof
end

