-- ==== Sys2Proof/Config.lean ====
section
/-!
DEFINITION. Config.lean: what is fixed when a block is built. The spec leaves one parameter open, `CAP`
(`00_scope.md` R5, `92_eei_decisions.md` D9). It leaves no value free: "Nothing in the block is "any value" or
a draw" (`93_implementation_defined.md` section 2), so no constant without a body stands here.
-/

namespace Sys2Proof

/-- The configuration of one block. -/
structure Config where
  /-- `CAP`, the capacity of the window in bytes (R5). -/
  capacity : Nat
deriving DecidableEq, Repr

/-- The greatest `CAP`: it keeps every index, the length and the span length inside one byte (R5). -/
def Config.maxCapacity : Nat := 255

/-- The reference configuration, `CAP = 16` (R5). -/
def Config.reference : Config := { capacity := 16 }

end Sys2Proof
end

