-- ==== Sys2Proof/Syntax.lean ====
section
/-!
DEFINITION. Syntax.lean: the commands of the block as data, one constructor per row of
`spec/opcode_table.json` (`30_encoding.md` R44). `ILLEGAL` is no command but the name of the decode result of a
reserved word (R46), so it has no constructor.
-/

namespace Sys2Proof

/-- The eleven commands (R44). An operand is the byte `imm8` (R45); every value is legal (R43). -/
inductive Instr where
  /-- `NOP` (R87). -/
  | nop
  /-- `CK.CLR` (R59). -/
  | ckClr
  /-- `CK.ADD b` (R60): `b` is a data byte. -/
  | ckAdd (b : Byte)
  /-- `CK.RD` (R61). -/
  | ckRd
  /-- `CK.RDD` (R62). -/
  | ckRdd
  /-- `FB.APP b` (R72): `b` is a data byte. -/
  | fbApp (b : Byte)
  /-- `FB.LEN` (R73). -/
  | fbLen
  /-- `FB.RDB i` (R74): `i` is a cell index. -/
  | fbRdb (i : Byte)
  /-- `FB.DET` (R75). -/
  | fbDet
  /-- `FB.CON` (R76). -/
  | fbCon
  /-- `FB.RST` (R77). -/
  | fbRst
deriving DecidableEq, Repr

/-- The two formats of a command word (R42, R43). -/
inductive Format where
  /-- Format N: no operand, the low byte zero (R42). -/
  | n
  /-- Format I: one byte operand (R43). -/
  | i
deriving DecidableEq, Repr

/-- The mnemonic of R44, upper case (R52). -/
def Instr.mnemonic : Instr → String
  | .nop => "NOP"
  | .ckClr => "CK.CLR"
  | .ckAdd _ => "CK.ADD"
  | .ckRd => "CK.RD"
  | .ckRdd => "CK.RDD"
  | .fbApp _ => "FB.APP"
  | .fbLen => "FB.LEN"
  | .fbRdb _ => "FB.RDB"
  | .fbDet => "FB.DET"
  | .fbCon => "FB.CON"
  | .fbRst => "FB.RST"

/-- The operand of a command, or none for a format N command: no command has two (R45). -/
def Instr.operand : Instr → Option Byte
  | .ckAdd b => some b
  | .fbApp b => some b
  | .fbRdb i => some i
  | .nop => none
  | .ckClr => none
  | .ckRd => none
  | .ckRdd => none
  | .fbLen => none
  | .fbDet => none
  | .fbCon => none
  | .fbRst => none

/-- The unit of a command, the field `cmd[15:12]`: 0 system, 1 CK, 2 FB (R41). -/
def Instr.unit : Instr → Nat
  | .nop => 0
  | .ckClr => 1
  | .ckAdd _ => 1
  | .ckRd => 1
  | .ckRdd => 1
  | .fbApp _ => 2
  | .fbLen => 2
  | .fbRdb _ => 2
  | .fbDet => 2
  | .fbCon => 2
  | .fbRst => 2

end Sys2Proof
end

