-- ==== Sys2Proof/WellFormed.lean ====
section
/-!
DEFINITION. WellFormed.lean: the checks on what is given to the block: a command word (`30_encoding.md` R47) and
a configuration (`00_scope.md` R5). A term of `Instr` needs no check: its operand is a byte, and "every value 0
to 255 of `imm8` is legal; none is reserved" (R43). The check on words is written from R47's list of the reserved
words by arithmetic on the number, and not from the decoder, so that the two can be compared.
-/

namespace Sys2Proof

/-- The field `unit`, `cmd[15:12]`, as a number. -/
def wordUnit (w : CmdWord) : Nat := w.toNat / 4096

/-- The field `fn`, `cmd[11:8]`, as a number. -/
def wordFn (w : CmdWord) : Nat := w.toNat / 256 % 16

/-- The low byte, `cmd[7:0]`, as a number. -/
def wordLow (w : CmdWord) : Nat := w.toNat % 256

/-- The opcodes of format N (R47). -/
def formatNOpcodes : List Nat := [0x00, 0x10, 0x12, 0x13, 0x21, 0x23, 0x24, 0x25]

/-- The reserved words, clause by clause as R47 lists them. -/
def wordReserved (w : CmdWord) : Bool :=
  decide (3 ≤ wordUnit w)
    || (decide (wordUnit w = 0) && decide (w.toNat ≠ 0))
    || (decide (wordUnit w = 1) && decide (4 ≤ wordFn w))
    || (decide (wordUnit w = 2) && decide (6 ≤ wordFn w))
    || (decide (w.toNat / 256 ∈ formatNOpcodes) && decide (wordLow w ≠ 0))

/-- A word that is a command: it is not reserved (R47). -/
def wordWellFormed (w : CmdWord) : Bool := !wordReserved w

/-- `1 <= CAP <= 255` (R5); anything else is "not a configuration of this block" (X9). -/
def configWellFormed (c : Config) : Bool := decide (1 ≤ c.capacity) && decide (c.capacity ≤ Config.maxCapacity)

end Sys2Proof
end

