-- ==== Sys2Proof/Decode.lean ====
section
/-!
DEFINITION. Decode.lean: the opcode map, the decoder and the encoder (`30_encoding.md` R41 to R47, R50, R51).
A command is one word of 16 bits on the command port; it is never laid out in memory and has no byte order
(`10_state.md` R20, `20_memory.md` R30), so the decoder reads the word itself. Decoding is total, on the word
alone, and refuses every reserved word.
-/

namespace Sys2Proof

/-- The opcode, the pair `(unit, fn)`, `cmd[15:8]` (R41). -/
def cmdOpcode (w : CmdWord) : Byte := w.extractLsb' 8 8

/-- The operand byte `imm8`, `cmd[7:0]`, bit 7 its most significant (R41, R45). -/
def cmdImm (w : CmdWord) : Byte := w.extractLsb' 0 8

/-- The decoder, test by test as R46 writes it; `none` is R46's `ILLEGAL`. -/
def decode (w : CmdWord) : Option Instr :=
  let op := cmdOpcode w
  let imm := cmdImm w
  if op = 0x11#8 then some (.ckAdd imm)
  else if op = 0x20#8 then some (.fbApp imm)
  else if op = 0x22#8 then some (.fbRdb imm)
  else if imm = 0#8 ∧ op = 0x00#8 then some .nop
  else if imm = 0#8 ∧ op = 0x10#8 then some .ckClr
  else if imm = 0#8 ∧ op = 0x12#8 then some .ckRd
  else if imm = 0#8 ∧ op = 0x13#8 then some .ckRdd
  else if imm = 0#8 ∧ op = 0x21#8 then some .fbLen
  else if imm = 0#8 ∧ op = 0x23#8 then some .fbDet
  else if imm = 0#8 ∧ op = 0x24#8 then some .fbCon
  else if imm = 0#8 ∧ op = 0x25#8 then some .fbRst
  else none

/-- A word from its three fields (R41). -/
def cmdWord (unit fn : BitVec 4) (imm : Byte) : CmdWord := (unit ++ fn) ++ imm

/-- The encoder, from the columns `unit`, `fn` and `format` of R44's table. -/
def encode : Instr → CmdWord
  | .nop => cmdWord 0 0 0
  | .ckClr => cmdWord 1 0 0
  | .ckAdd b => cmdWord 1 1 b
  | .ckRd => cmdWord 1 2 0
  | .ckRdd => cmdWord 1 3 0
  | .fbApp b => cmdWord 2 0 b
  | .fbLen => cmdWord 2 1 0
  | .fbRdb i => cmdWord 2 2 i
  | .fbDet => cmdWord 2 3 0
  | .fbCon => cmdWord 2 4 0
  | .fbRst => cmdWord 2 5 0

/-- One row of R44's table: the pair a decoder tests, `(cmd AND mask) = match`. -/
structure OpcodeRow where
  mnemonic : String
  format : Format
  mask : CmdWord
  pattern : CmdWord
deriving DecidableEq, Repr

/-- `(cmd AND mask) = match` (R44). -/
def OpcodeRow.matchesWord (r : OpcodeRow) (w : CmdWord) : Bool := (w &&& r.mask) == r.pattern

/-- The eleven rows of R44, in its order, letter for letter. -/
def opcodeTable : List OpcodeRow :=
  [ { mnemonic := "NOP", format := .n, mask := 0xFFFF, pattern := 0x0000 },
    { mnemonic := "CK.CLR", format := .n, mask := 0xFFFF, pattern := 0x1000 },
    { mnemonic := "CK.ADD", format := .i, mask := 0xFF00, pattern := 0x1100 },
    { mnemonic := "CK.RD", format := .n, mask := 0xFFFF, pattern := 0x1200 },
    { mnemonic := "CK.RDD", format := .n, mask := 0xFFFF, pattern := 0x1300 },
    { mnemonic := "FB.APP", format := .i, mask := 0xFF00, pattern := 0x2000 },
    { mnemonic := "FB.LEN", format := .n, mask := 0xFFFF, pattern := 0x2100 },
    { mnemonic := "FB.RDB", format := .i, mask := 0xFF00, pattern := 0x2200 },
    { mnemonic := "FB.DET", format := .n, mask := 0xFFFF, pattern := 0x2300 },
    { mnemonic := "FB.CON", format := .n, mask := 0xFFFF, pattern := 0x2400 },
    { mnemonic := "FB.RST", format := .n, mask := 0xFFFF, pattern := 0x2500 } ]

/-- The operand that R44's table and R45 give a word under a row: the low byte in format I, none in format N. -/
def OpcodeRow.operandOf (r : OpcodeRow) (w : CmdWord) : Option Byte :=
  match r.format with
  | .n => none
  | .i => some (cmdImm w)

/-- The command word whose bits are the low `nbits` bits of `w`, every bit above them zero. -/
def tableWord (nbits w : Nat) : CmdWord := BitVec.ofNat 16 (w % 2 ^ nbits)

/-- What the decoder reads from an instruction whose bits `spec/opcode_table.json` numbers as `w`. Every
command is one word of 16 bits (R41), so the table's numbering and the command word's are the same. -/
def decodeTableWord (nbits w : Nat) : Option Instr := decode (tableWord nbits w)

end Sys2Proof
end

