-- ==== Sys2Proof/Machine/State.lean ====
section
/-!
DEFINITION. Machine/State.lean: the state as plain data, the response record, and the reasons a step can stop.

"The architectural state of the block is exactly the triple `(ACC, LEN, MEM)`" (`10_state.md` R13): the fields
`acc`, `len` and `mem`. The other three fields are the model's own (DESIGN CHOICE, notes/assumptions 1 to 3): the
configuration, which no step changes, and the input and the output of one step, which R13 says are no state of
the block and which `Host.Core.step` has no other place for.
-/

namespace Sys2Proof.Machine

/-- The window: the cells that hold a value, as (cell index, byte), the indices strictly rising. An index that is
not listed holds no value (R18): there is no byte that an unlisted cell reads as. -/
abbrev Memory := List Host.Cell

/-- The status of a response, by its name (`30_encoding.md` R49). Codes 11 to 15 are unassigned and have no name
(notes/assumptions 11). -/
inductive Status where
  | success
  | missingStartOfFrame
  | missingEndOfFrame
  /-- The Dispatcher's; the block never produces it (R49, R106). -/
  | wrongChecksum
  /-- The Dispatcher's; the block never produces it (R49, R106). -/
  | unknownCommand
  /-- The Dispatcher's; the block never produces it (R49, R106). -/
  | unknownLed
  /-- The Dispatcher's; the block never produces it (R49, R106). -/
  | invalidFrequency
  | bufferFull
  | emptyBuffer
  | indexOutOfRange
  | illegalCommand
deriving DecidableEq, Repr

/-- A response: a status and three data bytes (R48). -/
structure Response where
  status : Status
  d2 : Byte
  d1 : Byte
  d0 : Byte
deriving DecidableEq, Repr

/-- What the host presents at one rising edge of `clk` at which the block is ready or `rst` is high (R54, R55). -/
structure PortSample where
  /-- The port `rst`. -/
  rst : Bool
  /-- The port `cmd_valid`. -/
  cmdValid : Bool
  /-- The port `cmd`. -/
  cmd : CmdWord
  /-- The host raises `rst` after the command of this sample was accepted and before its response
  (`70_reset_and_hazards.md` R123; notes/assumptions 12). -/
  rstBeforeRsp : Bool
deriving DecidableEq, Repr

/-- The state (R13). -/
structure State where
  /-- The configuration, fixed for the life of an instance (R5). The model's own field. -/
  config : Config
  /-- `ACC` (R14). -/
  acc : Byte
  /-- `LEN` (R15). -/
  len : Byte
  /-- `MEM` (R16, R18). -/
  mem : Memory
  /-- What the host presents on the ports, oldest first (R54). The model's own field. -/
  port : List PortSample
  /-- The response port after the latest step: `none` is `rsp_valid` low (R54). The model's own field. -/
  rsp : Option Response
deriving DecidableEq, Repr

/-- The model's faults. The block has none (`60_exceptions.md` R103, R122), and a state that meets the invariant
of R17 raises none: each is the model's refusal to make up a byte. -/
inductive Fault where
  /-- Raised by `storeCell` at an index at or above `CAP`, where there is no cell (`20_memory.md` R29). SAFE: no
  state that meets the invariant raises it. -/
  | noSuchCell (index : Nat)
  /-- Raised by `loadCell` at a cell that holds no value (R18). SAFE: no state that meets the invariant raises
  it. -/
  | cellHoldsNoValue (index : Nat)
deriving DecidableEq, Repr

/-- The model's refusals. No command is refused by the block (R122). -/
inductive Refusal where
  /-- Raised by an arm of `exec` that has no meaning yet; no arm raises it. SAFE. -/
  | notModelled (mnemonic : String)
  /-- Raised by a step when `CAP` is outside 1 to 255: "not a configuration of this block" (R5, X9). SAFE. -/
  | notAConfiguration
  /-- Raised by a step, unless it is a reset, in a state that breaks the invariant: "not a state of the block,
  and `step` is not defined on it" (R17). SAFE. -/
  | notAState
deriving DecidableEq, Repr

/-- The machine right after reset (R26): `ACC = 0`, `LEN = 0`, no cell holds a value, `rsp_valid` low (R123). The
configuration is the reference one and the host presents nothing (notes/assumptions 1, 2). -/
def State.reset : State where
  config := Config.reference
  acc := 0
  len := 0
  mem := []
  port := []
  rsp := none

end Sys2Proof.Machine
end

