-- ==== Sys2Proof/Machine/Ops.lean ====
section
/-!
DEFINITION. Machine/Ops.lean: the named operations over the window, the registers and the response port. All
reads and writes of the meanings go through these. The block takes no exception and returns from none
(`60_exceptions.md` R103, R111, R112): the one shared operation for errors is `respondError`.
-/

namespace Sys2Proof.Machine

/-! ### The window as a list of cells -/

/-- The canonical form of a window: cell indices strictly rising. -/
abbrev Memory.wf (m : Memory) : Prop := (m.map Prod.fst).Pairwise (· < ·)

/-- The byte of cell `i`, or none where the cell holds no value (R18). -/
def Memory.read : Memory → Nat → Option Byte
  | [], _ => none
  | (a, b) :: m, i => if a = i then some b else Memory.read m i

/-- `MEM[i] <- v`, at the cell's place in the rising order. -/
def Memory.write : Memory → Nat → Byte → Memory
  | [], i, v => [(i, v)]
  | (a, b) :: m, i, v =>
    if i < a then (i, v) :: (a, b) :: m
    else if i = a then (i, v) :: m
    else (a, b) :: Memory.write m i v

/-- Every cell from index `n` upward stops holding a value (R18). -/
def Memory.eraseFrom (m : Memory) (n : Nat) : Memory := m.filter (fun c => decide (c.1 < n))

/-! ### The state's window and length -/

/-- A state of the block: the configuration is one of R5, `0 <= LEN <= CAP` (R17), and the cells that hold a value
are exactly those below `LEN` (R13, R18). -/
abbrev State.Valid (s : State) : Prop :=
  configWellFormed s.config = true ∧ s.len.toNat ≤ s.config.capacity
    ∧ s.mem.map Prod.fst = List.range s.len.toNat

/-- The window as the list of its bytes in index order (R13's second view). -/
def State.window (s : State) : List Byte := s.mem.map Prod.snd

/-- `ACC <- v` (R14). -/
def State.setAcc (s : State) (v : Byte) : State := { s with acc := v }

/-- Lower `LEN` to `n`, erasing the cells from `n` upward (R18). -/
def State.lowerLen (s : State) (n : Nat) : State :=
  { s with len := BitVec.ofNat 8 n, mem := s.mem.eraseFrom n }

/-- `MEM[LEN] <- v` and `LEN <- LEN + 1` (R72). -/
def State.appendCell (s : State) (v : Byte) : State :=
  { s with len := s.len + 1, mem := s.mem.write s.len.toNat v }

/-! ### The response -/

/-- `respond(st, d2, d1, d0)`: every command executes exactly one, last (section 6 of `00_scope.md`, R48). -/
def respond (st : Status) (d2 d1 d0 : Byte) (s : State) : Host.Outcome State Fault Refusal :=
  .next { s with rsp := some { status := st, d2 := d2, d1 := d1, d0 := d0 } }

/-- A success that carries no data (R48). -/
def respondDone (s : State) : Host.Outcome State Fault Refusal := respond .success 0 0 0 s

/-- An error: the status is the whole report, the data fields are zero, nothing else happens (R103, R105). -/
def respondError (st : Status) (s : State) : Host.Outcome State Fault Refusal := respond st 0 0 0 s

/-! ### The load and the store -/

/-- `MemRead(i, 1)`, then the rest of the command: a read of a cell that holds no value has no result (R18). -/
def loadCell (i : Nat) (s : State) (k : Byte → Host.Outcome State Fault Refusal) :
    Host.Outcome State Fault Refusal :=
  match s.mem.read i with
  | some b => k b
  | none => .fault (.cellHoldsNoValue i)

/-- `MemWrite(LEN, 1, v)` with `LEN <- LEN + 1`, then the rest of the command (R72). -/
def storeCell (v : Byte) (s : State) (k : State → Host.Outcome State Fault Refusal) :
    Host.Outcome State Fault Refusal :=
  if s.len.toNat < s.config.capacity then k (s.appendCell v) else .fault (.noSuchCell s.len.toNat)

/-! ### Status codes and the response word -/

/-- The code of a status (R49). -/
def Status.code : Status → StatusCode
  | .success => 0
  | .missingStartOfFrame => 1
  | .missingEndOfFrame => 2
  | .wrongChecksum => 3
  | .unknownCommand => 4
  | .unknownLed => 5
  | .invalidFrequency => 6
  | .bufferFull => 7
  | .emptyBuffer => 8
  | .indexOutOfRange => 9
  | .illegalCommand => 10

/-- The status of a code; none for the unassigned codes 11 to 15 (R49). -/
def Status.ofCode (c : StatusCode) : Option Status :=
  [.success, .missingStartOfFrame, .missingEndOfFrame, .wrongChecksum, .unknownCommand, .unknownLed,
    .invalidFrequency, .bufferFull, .emptyBuffer, .indexOutOfRange, .illegalCommand][c.toNat]?

/-- The statuses the block produces (R49, R104): all but those of the Dispatcher. -/
def Status.producible (st : Status) : Bool :=
  st ∈ [Status.success, .missingStartOfFrame, .missingEndOfFrame, .bufferFull, .emptyBuffer, .indexOutOfRange,
    .illegalCommand]

/-- The 28-bit word of a response: `status` in 27:24, `d2` in 23:16, `d1` in 15:8, `d0` in 7:0 (R48). -/
def Response.pack (r : Response) : RspWord := ((r.status.code ++ r.d2) ++ r.d1) ++ r.d0

/-- The response a word stands for, none where its status code is unassigned (R48, R49). -/
def Response.unpack (w : RspWord) : Option Response :=
  (Status.ofCode (w.extractLsb' 24 4)).map fun st =>
    { status := st, d2 := w.extractLsb' 16 8, d1 := w.extractLsb' 8 8, d0 := w.extractLsb' 0 8 }

/-- The port `rsp_valid` after a step (R54). -/
def State.rspValid (s : State) : Bool := s.rsp.isSome

/-- The port `rsp` after a step: it carries a word only while `rsp_valid` is high (R54). -/
def State.rspWord (s : State) : Option RspWord := s.rsp.map Response.pack

end Sys2Proof.Machine
end

