-- ==== Sys2Proof/Machine/Operands.lean ====
section
/-!
DEFINITION. Machine/Operands.lean: the operand forms (`30_encoding.md` R45) and the constants a byte is compared
with or built from (`00_scope.md` R6, R7). The only operand is the byte `imm8`, taken as it is, unsigned, never
extended, scaled or shifted; there is no register operand and no addressing mode to compute.
-/

namespace Sys2Proof.Machine

/-- The start-of-frame marker `#` (R6). -/
def sof : Byte := 0x23

/-- The end-of-frame marker `!` (R6). -/
def eof : Byte := 0x21

/-- The code of the character `0` (R7). -/
def digit0 : Byte := 0x30

/-- The operand of `CK.ADD` and `FB.APP`: a data byte (R45). -/
def operandData (imm : Byte) : Byte := imm

/-- The operand of `FB.RDB`: a cell index, an unsigned integer 0 to 255 (R45). -/
def operandIndex (imm : Byte) : Nat := imm.toNat

/-- The number of a cell, a length or a span as the byte of a data field; all are at most 255 (R5, R63). -/
def countByte (n : Nat) : Byte := BitVec.ofNat 8 n

end Sys2Proof.Machine
end

