-- ==== Sys2Proof/Machine/Arith.lean ====
section
/-!
DEFINITION. Machine/Arith.lean: the two pure functions of the Checksum Unit (`40_checksum_unit.md` R57, R58) and
the one addition (R60, R63).
-/

namespace Sys2Proof.Machine

/-- The sum of a byte sequence as a sum of naturals (R57). -/
def byteSum (bytes : List Byte) : Nat := (bytes.map BitVec.toNat).sum

/-- `checksum(bytes, n)`: the sum of the first `n` bytes modulo 256 (R57), R10's mathematical function. DESIGN CHOICE
for fewer than `n` bytes, where R57 defines nothing (N20 of `91_not_in_source.md`): the sum of the bytes there are
(notes/assumptions 15). -/
def checksum (bytes : List Byte) (n : Nat) : Nat := byteSum (bytes.take n) % 256

/-- The checksum of a whole sequence, as the byte an accumulator holds. -/
def checksumByte (bytes : List Byte) : Byte := countByte (checksum bytes bytes.length)

/-- `(ACC + imm8) mod 256`: the carry out of bit 7 is discarded (R60, R63). -/
def addMod256 (a b : Byte) : Byte := countByte ((a.toNat + b.toNat) % 256)

/-- The character of a decimal digit (R7). -/
def digitByte (d : Nat) : Byte := countByte (digit0.toNat + d)

/-- `dec3(v)`: hundreds, tens, ones as ASCII digits (R58). -/
def dec3 (v : Byte) : Byte × Byte × Byte :=
  (digitByte (v.toNat / 100), digitByte (v.toNat / 10 % 10), digitByte (v.toNat % 10))

end Sys2Proof.Machine
end

