-- ==== Sys2Proof/Machine/Flags.lean ====
section
/-!
DEFINITION. Machine/Flags.lean: the block has no flag register, no carry and no condition code (`10_state.md`
R21), so no flag is computed. What takes their place is the status of the response: here stand the conditions the
statuses report (`60_exceptions.md` R104, R109) and the detection they rest on (`41_frame_buffer.md` R69 to R71).
-/

namespace Sys2Proof.Machine

/-- The condition of `BufferFull`: `LEN = CAP` (R72, R104). -/
def bufferFull (s : State) : Bool := decide (s.len.toNat = s.config.capacity)

/-- The condition of `IndexOutOfRange`: `i >= LEN` (R74, R104). -/
def indexOutOfRange (i : Nat) (s : State) : Bool := decide (s.len.toNat ≤ i)

/-- The least of the `n` indices from `i` upward whose cell holds `v`. -/
def scanFrom (m : Memory) (v : Byte) (i : Nat) : Nat → Option Nat
  | 0 => none
  | n + 1 => if m.read i = some v then some i else scanFrom m v (i + 1) n

/-- `first i in [a, b) with MEM[i] = v`; none when there is none or `a >= b` (section 6 of `00_scope.md`). -/
def firstIndex (m : Memory) (v : Byte) (a b : Nat) : Option Nat := scanFrom m v a (b - a)

/-- `S`, the index of the start marker (R69). -/
def startIndex (s : State) : Option Nat := firstIndex s.mem sof 0 s.len.toNat

/-- `E`, the index of the end marker above a start marker at `start` (R70). -/
def endIndex (s : State) (start : Nat) : Option Nat := firstIndex s.mem eof (start + 1) s.len.toNat

/-- `start` is the index of the start marker, in R69's own words: the least index below `LEN` that holds `#`. The
scans above are claimed to compute this and `EndAt`. -/
def StartAt (s : State) (start : Nat) : Prop :=
  start < s.len.toNat ∧ s.mem.read start = some sof ∧ ∀ i, i < start → s.mem.read i ≠ some sof

/-- `stop` is the index of the end marker of a start marker at `start`, in R70's own words: the least index above
`start` and below `LEN` that holds `!`. -/
def EndAt (s : State) (start stop : Nat) : Prop :=
  start < stop ∧ stop < s.len.toNat ∧ s.mem.read stop = some eof
    ∧ ∀ j, start < j → j < stop → s.mem.read j ≠ some eof

/-- The four outcomes of detection (R71). -/
inductive Detection where
  | empty
  | noStart
  | noEnd
  /-- The span from the start marker at `start` through the end marker at `stop`, both included. -/
  | found (start stop : Nat)
deriving DecidableEq, Repr

/-- `detect(LEN, MEM)`, tested in R71's order; computed afresh, nothing is latched (R25). -/
def detect (s : State) : Detection :=
  if s.len.toNat = 0 then .empty
  else
    match startIndex s with
    | none => .noStart
    | some start =>
      match endIndex s start with
      | none => .noEnd
      | some stop => .found start stop

/-- The status a detection answers with (R75, R76, R104). -/
def Detection.status : Detection → Status
  | .empty => .emptyBuffer
  | .noStart => .missingStartOfFrame
  | .noEnd => .missingEndOfFrame
  | .found _ _ => .success

end Sys2Proof.Machine
end

