-- ==== Sys2Proof/Machine/ChecksumUnit.lean ====
section
/-!
DEFINITION. Machine/ChecksumUnit.lean: the CK family (`40_checksum_unit.md` R59 to R62). No CK command touches
`LEN` or the window, and none can fail.
-/

namespace Sys2Proof.Machine

/-- `CK.CLR` (R59). -/
def execCkClr (s : State) : Host.Outcome State Fault Refusal := respondDone (s.setAcc 0)

/-- `CK.ADD b` (R60). -/
def execCkAdd (b : Byte) (s : State) : Host.Outcome State Fault Refusal :=
  respondDone (s.setAcc (addMod256 s.acc (operandData b)))

/-- `CK.RD` (R61). -/
def execCkRd (s : State) : Host.Outcome State Fault Refusal := respond .success 0 0 s.acc s

/-- `CK.RDD` (R62): `d2` = hundreds, `d1` = tens, `d0` = ones. -/
def execCkRdd (s : State) : Host.Outcome State Fault Refusal :=
  respond .success (dec3 s.acc).1 (dec3 s.acc).2.1 (dec3 s.acc).2.2 s

end Sys2Proof.Machine
end

