-- ==== Sys2Proof/Machine/FrameBuffer.lean ====
section
/-!
DEFINITION. Machine/FrameBuffer.lean: the FB family (`41_frame_buffer.md` R72 to R77). No FB command touches
`ACC`. Clearing is the lossy trim (`90_conflicts.md` C1).
-/

namespace Sys2Proof.Machine

/-- `FB.APP b` (R72): the block's only store. -/
def execFbApp (b : Byte) (s : State) : Host.Outcome State Fault Refusal :=
  if bufferFull s then respondError .bufferFull s
  else storeCell (operandData b) s respondDone

/-- `FB.LEN` (R73). -/
def execFbLen (s : State) : Host.Outcome State Fault Refusal := respond .success 0 0 s.len s

/-- `FB.RDB i` (R74): the block's only load. -/
def execFbRdb (i : Byte) (s : State) : Host.Outcome State Fault Refusal :=
  if indexOutOfRange (operandIndex i) s then respondError .indexOutOfRange s
  else loadCell (operandIndex i) s (fun b => respond .success 0 0 b s)

/-- What `FB.DET` and `FB.CON` share (R75, R76): the errors, the full reset of the window when the end marker is
missing, and the response `(E - S + 1, E, S)` of a span, given on the state that `onSpan` leaves. -/
def answerDetection (onSpan : Nat → State → State) (s : State) : Host.Outcome State Fault Refusal :=
  match detect s with
  | .empty => respondError Detection.empty.status s
  | .noStart => respondError Detection.noStart.status s
  | .noEnd => respondError Detection.noEnd.status (s.lowerLen 0)
  | .found start stop =>
    respond (Detection.found start stop).status (countByte (stop - start + 1)) (countByte stop)
      (countByte start) (onSpan start s)

/-- `FB.DET` (R75): detection does not consume. -/
def execFbDet (s : State) : Host.Outcome State Fault Refusal := answerDetection (fun _ t => t) s

/-- `FB.CON` (R76): `LEN <- S`, everything from the start marker onward is gone. -/
def execFbCon (s : State) : Host.Outcome State Fault Refusal :=
  answerDetection (fun start t => t.lowerLen start) s

/-- `FB.RST` (R77). -/
def execFbRst (s : State) : Host.Outcome State Fault Refusal := respondDone (s.lowerLen 0)

end Sys2Proof.Machine
end

