-- ==== Sys2Proof/Machine/System.lean ====
section
/-!
DEFINITION. Machine/System.lean: the system family: `NOP` (`42_system.md` R87) and the execution of a reserved
word (R88), which is no constructor of `Instr` (notes/assumptions 6).
-/

namespace Sys2Proof.Machine

/-- `NOP` (R87). -/
def execNop (s : State) : Host.Outcome State Fault Refusal := respondDone s

/-- `ILLEGAL`, any reserved word: state unchanged, `IllegalCommand` (R47, R88). -/
def execReserved (s : State) : Host.Outcome State Fault Refusal := respondError .illegalCommand s

end Sys2Proof.Machine
end

