-- ==== Sys2Proof/Machine/Dispatch.lean ====
section
/-! DEFINITION. Machine/Dispatch.lean: one arm per command (`30_encoding.md` R44), in the table's order. -/

namespace Sys2Proof.Machine

def exec (i : Instr) (s : State) : Host.Outcome State Fault Refusal :=
  match i with
  | .nop => Sys2Proof.Machine.execNop s
  | .ckClr => Sys2Proof.Machine.execCkClr s
  | .ckAdd b => Sys2Proof.Machine.execCkAdd b s
  | .ckRd => Sys2Proof.Machine.execCkRd s
  | .ckRdd => Sys2Proof.Machine.execCkRdd s
  | .fbApp b => Sys2Proof.Machine.execFbApp b s
  | .fbLen => Sys2Proof.Machine.execFbLen s
  | .fbRdb k => Sys2Proof.Machine.execFbRdb k s
  | .fbDet => Sys2Proof.Machine.execFbDet s
  | .fbCon => Sys2Proof.Machine.execFbCon s
  | .fbRst => Sys2Proof.Machine.execFbRst s

end Sys2Proof.Machine
end

