-- ==== Sys2Proof/Machine/Port.lean ====
section
/-!
DEFINITION. Machine/Port.lean: the command port (`30_encoding.md` R54, R55) and reset (`70_reset_and_hazards.md`
R123). One step is what the host presents at one rising edge at which the block is ready or `rst` is high: a
reset, an accepted command with its state change and its response, or nothing. There are no clocks between
acceptance and response: "no rule of the model depends on" their number (R55, R135; notes/assumptions 7).
-/

namespace Sys2Proof.Machine

/-- The execution of one accepted command word: the decoded command, or `ILLEGAL` (R46, R88). The decode comes
first and does not read the state (R109). -/
def executeWord (w : CmdWord) (s : State) : Host.Outcome State Fault Refusal :=
  match decode w with
  | some i => exec i s
  | none => execReserved s

/-- The port `cmd_ready` at a step: low while `rst = 1` (R123). -/
def cmdReady (p : PortSample) : Bool := !p.rst

/-- A command is accepted when `rst = 0`, `cmd_valid = 1` and `cmd_ready = 1` (R55). -/
def accepted (p : PortSample) : Bool := !p.rst && p.cmdValid && cmdReady p

/-- The sample by which the host presents a command word and lets it finish. -/
def presented (w : CmdWord) : PortSample :=
  { rst := false, cmdValid := true, cmd := w, rstBeforeRsp := false }

/-- The sample by which the host holds `rst` high. -/
def resetSample : PortSample := { rst := true, cmdValid := false, cmd := 0, rstBeforeRsp := false }

/-- The host presents a command word before anything else it presents. -/
def State.present (s : State) (w : CmdWord) : State := { s with port := presented w :: s.port }

/-- The state becomes the reset state, whatever it was, and `rsp_valid` is low (R26, R123). The configuration is
not state and stays (R5, R22). -/
def State.afterReset (s : State) : State :=
  { config := s.config, acc := 0, len := 0, mem := [], port := s.port, rsp := none }

/-- No command: the state stays (R121) and `rsp_valid` is low (R54). -/
def State.idle (s : State) : State := { s with rsp := none }

/-- Go on only in a state of the block (R17, X9). -/
def onState (s : State) (k : State → Host.Outcome State Fault Refusal) : Host.Outcome State Fault Refusal :=
  if configWellFormed s.config then (if s.Valid then k s else .refused .notAState)
  else .refused .notAConfiguration

/-- A reset, from whatever state of a block of this configuration (R123, R124). -/
def onReset (s : State) : Host.Outcome State Fault Refusal :=
  if configWellFormed s.config then .next s.afterReset else .refused .notAConfiguration

/-- An accepted command: it runs to its response, unless `rst` rises first, which abandons it without a response
and leaves none of its effects (R123, X4). -/
def acceptCommand (p : PortSample) (s : State) : Host.Outcome State Fault Refusal :=
  if p.rstBeforeRsp then onReset s else executeWord p.cmd s

/-- One sample of the port. -/
def portStep (p : PortSample) (s : State) : Host.Outcome State Fault Refusal :=
  if p.rst then onReset s
  else onState s (fun t => if accepted p then acceptCommand p t else .next t.idle)

/-- The host presents nothing more. -/
def quietStep (s : State) : Host.Outcome State Fault Refusal := onState s (fun t => .next t.idle)

/-- Take the next sample of the port, if there is one. -/
def stepPort (s : State) : Host.Outcome State Fault Refusal :=
  match s.port with
  | [] => quietStep s
  | p :: rest => portStep p { s with port := rest }

end Sys2Proof.Machine
end

