-- ==== Sys2Proof/Machine/Step.lean ====
section
/-!
DEFINITION. Machine/Step.lean: one step of the block (`00_scope.md` R9): one accepted command, its state change,
its response; or a reset; or nothing. The block fetches nothing (`10_state.md` R20): the next command is the one
the host presents first.
-/

namespace Sys2Proof.Machine

/-- One step. -/
def step (s : State) : Host.Outcome State Fault Refusal := stepPort s

/-- The state in which the host presents the command word of `tableWord` next (notes/assumptions 8). -/
def State.withFetchWord (s : State) (nbits w : Nat) : State := s.present (tableWord nbits w)

end Sys2Proof.Machine
end

