-- ==== Sys2Proof/Machine/Assembly.lean ====
section
/-!
DEFINITION. Machine/Assembly.lean: the assembler syntax (`30_encoding.md` R52), notation of the spec over lists of
characters: an upper-case mnemonic, then for format I one space and the operand, a number 0 to 255 in decimal, in
hexadecimal, or one ASCII character in single quotes; `;` starts a comment. What the rule leaves open (letter case
of hexadecimal digits, leading zeros, space before a comment) is notes/assumptions 10.
-/

namespace Sys2Proof.Machine

/-- The printer: the operand in decimal. -/
def assembly (i : Instr) : List Char :=
  match i.operand with
  | none => i.mnemonic.toList
  | some b => i.mnemonic.toList ++ ' ' :: Nat.toDigits 10 b.toNat

/-- The value of a digit in a base up to 16. -/
def digitValue (base : Nat) (c : Char) : Option Nat :=
  let n := c.toNat
  let v :=
    if 48 ≤ n ∧ n ≤ 57 then n - 48
    else if 65 ≤ n ∧ n ≤ 70 then n - 55
    else if 97 ≤ n ∧ n ≤ 102 then n - 87
    else base
  if v < base then some v else none

/-- The longest run of digits at the front: its value with `acc` before it, and the rest. -/
def readDigits (base : Nat) (acc : Nat) : List Char → Nat × List Char
  | [] => (acc, [])
  | c :: cs =>
    match digitValue base c with
    | some d => readDigits base (acc * base + d) cs
    | none => (acc, c :: cs)

/-- A number of at least one digit that is a byte, and the rest. -/
def readNumber (base : Nat) : List Char → Option (Byte × List Char)
  | [] => none
  | c :: cs =>
    match digitValue base c with
    | none => none
    | some d =>
      let r := readDigits base d cs
      if r.1 < 256 then some (BitVec.ofNat 8 r.1, r.2) else none

/-- An operand in one of the three notations, and the rest (R52). -/
def readOperand : List Char → Option (Byte × List Char)
  | '\'' :: c :: '\'' :: cs => if c.toNat < 128 then some (BitVec.ofNat 8 c.toNat, cs) else none
  | '0' :: 'x' :: cs => readNumber 16 cs
  | cs => readNumber 10 cs

/-- Nothing but space may stand before the end of the line or the comment. -/
def lineEnds : List Char → Bool
  | [] => true
  | ' ' :: cs => lineEnds cs
  | ';' :: _ => true
  | _ => false

/-- The rest of the line behind a given word at its front. -/
def dropWord : List Char → List Char → Option (List Char)
  | [], cs => some cs
  | _ :: _, [] => none
  | c :: w, d :: cs => if c = d then dropWord w cs else none

/-- A format N command whose mnemonic is `i`'s. -/
def readPlain (i : Instr) (line : List Char) : Option Instr :=
  match dropWord i.mnemonic.toList line with
  | some rest => if lineEnds rest then some i else none
  | none => none

/-- A format I command whose mnemonic is that of `mk`. -/
def readWithOperand (mk : Byte → Instr) (line : List Char) : Option Instr :=
  match dropWord ((mk 0).mnemonic.toList ++ [' ']) line with
  | some rest =>
    match readOperand rest with
    | some (b, tail) => if lineEnds tail then some (mk b) else none
    | none => none
  | none => none

/-- The reader of one line: none where the line is not a command in this syntax. -/
def assemble (line : List Char) : Option Instr :=
  [readPlain .nop, readPlain .ckClr, readWithOperand .ckAdd, readPlain .ckRd, readPlain .ckRdd,
    readWithOperand .fbApp, readPlain .fbLen, readWithOperand .fbRdb, readPlain .fbDet, readPlain .fbCon,
    readPlain .fbRst].findSome? (fun read => read line)

end Sys2Proof.Machine
end

