-- ==== Sys2Proof/Machine/Composite.lean ====
section
/-!
DEFINITION. Machine/Composite.lean: sequences of commands a host issues, and the wire frame they serve
(`43_composite_sequences.md`). The block knows nothing of them; they are functions over `executeWord`.
-/

namespace Sys2Proof.Machine

/-! ### A sequence of command words -/

/-- The words executed one after the other in the order the host presents them (`20_memory.md` R37), with the
state after the last and the response of each, first to last. -/
def runWords : List CmdWord → State → Host.Outcome (State × List Response) Fault Refusal
  | [], s => .next (s, [])
  | w :: ws, s =>
    match executeWord w s with
    | .next t =>
      match runWords ws t with
      | .next (u, rs) => .next (u, t.rsp.toList ++ rs)
      | .fault f => .fault f
      | .refused r => .refused r
    | .fault f => .fault f
    | .refused r => .refused r

/-- A sequence of commands: their words. -/
def runInstrs (is : List Instr) (s : State) : Host.Outcome (State × List Response) Fault Refusal :=
  runWords (is.map encode) s

/-- The operands of the `CK.ADD` commands accepted since the latest `CK.CLR`, `before` being those accepted before
the first of these words (`40_checksum_unit.md` R65). -/
def addedSinceClear : List CmdWord → List Byte → List Byte
  | [], before => before
  | w :: ws, before =>
    match decode w with
    | some .ckClr => addedSinceClear ws []
    | some (.ckAdd b) => addedSinceClear ws (before ++ [b])
    | _ => addedSinceClear ws before

/-- A word that writes `ACC` when executed: `CK.CLR` or `CK.ADD` (`10_state.md` R14). -/
def writesAcc (w : CmdWord) : Bool :=
  match decode w with
  | some .ckClr => true
  | some (.ckAdd _) => true
  | _ => false

/-! ### Pseudo-instructions (`30_encoding.md` R53) -/

/-- `CKSUM` without its last command: `CK.CLR`, then one `CK.ADD` per byte (R93). -/
def cksumAdds (bytes : List Byte) : List Instr := .ckClr :: bytes.map .ckAdd

/-- `CKSUM b0, ..., b(n-1)` (R93). -/
def cksum (bytes : List Byte) : List Instr := cksumAdds bytes ++ [.ckRd]

/-- `CKSUMD b0, ..., b(n-1)` (R94). -/
def cksumd (bytes : List Byte) : List Instr := cksumAdds bytes ++ [.ckRdd]

/-- `FB.PUT b0, ..., b(n-1)` (R95). -/
def fbPut (bytes : List Byte) : List Instr := bytes.map .fbApp

/-- `FB.GET k` after a detection that answered `d0 = start`: `FB.RDB (S + k)`, the sum made by the host (R96). DESIGN
CHOICE for a sum above 255: its low 8 bits (notes/assumptions 14). -/
def fbGet (start k : Nat) : Instr := .fbRdb (countByte (start + k))

/-- `FB.DROP` is `FB.RST` under another name (R97). -/
def fbDrop : Instr := .fbRst

/-! ### The checksum of bytes held in the window (R98) -/

/-- The host's loop over `n` cells from `k` upward, then `ending`: `FB.RDB k` and, the status being `Success`,
`CK.ADD d0`. DESIGN CHOICE: after a refused read, or one without a response, the host issues nothing more, neither a
further pair nor the ending, so that the refusal is the last response (notes/assumptions 14). -/
def addCells : Nat → Nat → (State → Host.Outcome State Fault Refusal) → State → Host.Outcome State Fault Refusal
  | _, 0, ending, s => ending s
  | k, n + 1, ending, s =>
    match exec (.fbRdb (countByte k)) s with
    | .next t =>
      match t.rsp with
      | some { status := .success, d2 := _, d1 := _, d0 := d0 } =>
        match exec (.ckAdd d0) t with
        | .next u => addCells (k + 1) n ending u
        | .fault f => .fault f
        | .refused r => .refused r
      | _ => .next t
    | .fault f => .fault f
    | .refused r => .refused r

/-- The checksum of the cells `a` to `b` inclusive: `CK.CLR`, the loop, and the command that reads the result. -/
def sumWindowBy (read : Instr) (a b : Nat) (s : State) : Host.Outcome State Fault Refusal :=
  match exec .ckClr s with
  | .next t => addCells a (b + 1 - a) (exec read) t
  | .fault f => .fault f
  | .refused r => .refused r

/-- R98 ending with `CK.RD`. -/
def sumWindow (a b : Nat) (s : State) : Host.Outcome State Fault Refusal := sumWindowBy .ckRd a b s

/-- R98 ending with `CK.RDD`, as a host that compares the digits of a frame does (R102). -/
def sumWindowDigits (a b : Nat) (s : State) : Host.Outcome State Fault Refusal := sumWindowBy .ckRdd a b s

/-! ### The wire frame (R99, R101) -/

/-- The bytes of the cells `a` to `a + n - 1`. -/
def cellsFrom (s : State) (a n : Nat) : List Byte := (s.window.drop a).take n

/-- A frame: `#`, the command identifier and the argument bytes, the three digits of their checksum, `!` (R99). -/
def wireFrame (body : List Byte) : List Byte :=
  let digits := dec3 (checksumByte body)
  sof :: body ++ [digits.1, digits.2.1, digits.2.2, eof]

/-- "The frame's checksum is right" for a span `(S, E)` of a well-formed frame (R101). DESIGN CHOICE for
the spans that are not well formed, of which R101 "says nothing": shorter than 6, it is not right; of 6 or more whose
`E` is not where the identifier says, or with an identifier of no command, it is judged by `E` all the same and may
be right, because the identifier's length is the host's to check; and for a pair that is no detected span, by the
cells there are, a cell that holds no value being no digit (notes/assumptions 14). -/
def frameChecksumRight (s : State) (start stop : Nat) : Bool :=
  let digits := dec3 (checksumByte (cellsFrom s (start + 1) (stop - start - 4)))
  decide (6 ≤ stop - start + 1) && (s.mem.read (stop - 3) == some digits.1)
    && (s.mem.read (stop - 2) == some digits.2.1) && (s.mem.read (stop - 1) == some digits.2.2)

end Sys2Proof.Machine
end

