-- ==== Sys2Proof/Machine/ListView.lean ====
section
/-!
DEFINITION. Machine/ListView.lean: the spec's own function `step : State x Cmd -> State x Rsp` (`00_scope.md` R9)
over the state's second view (`10_state.md` R13): "a pair: a byte `ACC` and a list of bytes of length at most `CAP`
(the list's length is `LEN`, its `i`-th element is `MEM[i]`). The two views are the same machine." It is written
apart from the meanings, over plain lists, so that the claim that the two agree says something.
-/

namespace Sys2Proof.Machine

/-- The pair of R13. -/
structure ListView where
  acc : Byte
  window : List Byte
deriving DecidableEq, Repr

/-- The view of a state. -/
def State.view (s : State) : ListView := { acc := s.acc, window := s.window }

/-- `(Success, 0, 0, 0)` (R48). -/
def answerDone : Response := { status := .success, d2 := 0, d1 := 0, d0 := 0 }

/-- `(Success, 0, 0, d0)`. -/
def answerByte (d0 : Byte) : Response := { status := .success, d2 := 0, d1 := 0, d0 := d0 }

/-- An error response (R105). -/
def answerError (st : Status) : Response := { status := st, d2 := 0, d1 := 0, d0 := 0 }

/-- The least index at or above `a` at which the list holds `v`. -/
def firstInList (l : List Byte) (v : Byte) (a : Nat) : Option Nat :=
  ((l.drop a).findIdx? (· == v)).map (a + ·)

/-- `detect` over a list (R71). -/
def detectList (l : List Byte) : Detection :=
  if l.isEmpty then .empty
  else
    match firstInList l sof 0 with
    | none => .noStart
    | some start =>
      match firstInList l eof (start + 1) with
      | none => .noEnd
      | some stop => .found start stop

/-- `FB.DET` and `FB.CON` over a list: the window after a complete frame is `onSpan` of its start (R75, R76). -/
def detectAnswer (v : ListView) (onSpan : Nat → List Byte) : ListView × Response :=
  match detectList v.window with
  | .empty => (v, answerError .emptyBuffer)
  | .noStart => (v, answerError .missingStartOfFrame)
  | .noEnd => ({ v with window := [] }, answerError .missingEndOfFrame)
  | .found start stop =>
    ({ v with window := onSpan start },
      { status := .success, d2 := countByte (stop - start + 1), d1 := countByte stop, d0 := countByte start })

/-- One command over the list view (R59 to R62, R72 to R77, R87). -/
def ListView.exec (cap : Nat) (v : ListView) : Instr → ListView × Response
  | .nop => (v, answerDone)
  | .ckClr => ({ v with acc := 0 }, answerDone)
  | .ckAdd b => ({ v with acc := v.acc + b }, answerDone)
  | .ckRd => (v, answerByte v.acc)
  | .ckRdd => (v, { status := .success, d2 := (dec3 v.acc).1, d1 := (dec3 v.acc).2.1, d0 := (dec3 v.acc).2.2 })
  | .fbApp b =>
    if v.window.length = cap then (v, answerError .bufferFull)
    else ({ v with window := v.window ++ [b] }, answerDone)
  | .fbLen => (v, answerByte (countByte v.window.length))
  | .fbRdb i =>
    match v.window[i.toNat]? with
    | some b => (v, answerByte b)
    | none => (v, answerError .indexOutOfRange)
  | .fbDet => detectAnswer v (fun _ => v.window)
  | .fbCon => detectAnswer v (fun start => v.window.take start)
  | .fbRst => ({ v with window := [] }, answerDone)

/-- The spec's `step` (R9): defined for every command word, a reserved word included (R88). -/
def ListView.step (cap : Nat) (v : ListView) (w : CmdWord) : ListView × Response :=
  match decode w with
  | some i => v.exec cap i
  | none => (v, answerError .illegalCommand)

end Sys2Proof.Machine
end

