-- ==== Sys2Proof/Safety.lean ====
section
/-!
DEFINITION. Safety.lean: what counts as a safe run of the block, and the situations of
`70_reset_and_hazards.md` that a host must avoid, as claims name them. The block detects none of them (section 3
of that file); each predicate is the claims', not the block's (`60_exceptions.md` R122).
-/

namespace Sys2Proof.Machine

/-- An outcome that is a next state: neither a fault nor a refusal. -/
def isNext {σ : Type} (o : Host.Outcome σ Fault Refusal) : Bool :=
  match o with
  | .next _ => true
  | .fault _ => false
  | .refused _ => false

/-- A response that a correct host never causes (R122): `IllegalCommand` or `IndexOutOfRange`. -/
def hostMistake (r : Response) : Bool := r.status == .illegalCommand || r.status == .indexOutOfRange

/-- The wedged window (R130): full, and no start marker in it. -/
def Wedged (s : State) : Prop := s.len.toNat = s.config.capacity ∧ ∀ i, s.mem.read i ≠ some sof

/-- A word whose execution can lower `LEN`: `FB.DET`, `FB.CON` or `FB.RST` (`10_state.md` R15). -/
def mayLowerLen (w : CmdWord) : Bool :=
  match decode w with
  | some .fbDet => true
  | some .fbCon => true
  | some .fbRst => true
  | _ => false

/-- A word that ends a found span or removes it: `FB.CON` or `FB.RST` (`41_frame_buffer.md` R78). -/
def endsSpan (w : CmdWord) : Bool :=
  match decode w with
  | some .fbCon => true
  | some .fbRst => true
  | _ => false

/-- A word that appends a start marker (R79). -/
def appendsStart (w : CmdWord) : Bool := decode w == some (.fbApp sof)

/-- `FB.RST`, by any word (R130). -/
def emptiesWindow (w : CmdWord) : Bool := decode w == some .fbRst

end Sys2Proof.Machine
end

