-- ==== Sys2Proof/Certificates/Slice0/Obligations.lean ====
section
/-!
DEFINITION. Certificates/Slice0/Obligations.lean: what is claimed of the model. Each claim names the rule of spec/
it formalises. A next state is given as the old state with the fields that change, so that every other register,
every cell of the window and the configuration are claimed unchanged (the frame). `s.Valid` is the invariant of
`10_state.md` R17; `StepKeepsStateInvariant` claims that every step keeps it.
-/

open Sys2Proof Sys2Proof.Machine

/-! ### Encoding -/

/-- R44, R46: the decoder and the encoder are inverse to each other, in both directions, for every command with
every operand and for every word. -/
def Obligations.DecodeAndEncodeAgree : Prop :=
  ∀ (i : Instr) (w : CmdWord), decode w = some i ↔ encode i = w

/-- R44: no word matches two rows; the decoder gives exactly the matching row's command with the row's operand;
776 words are commands and the other 64,760 are reserved. -/
def Obligations.DecoderFollowsOpcodeTable : Prop :=
  (∀ r ∈ opcodeTable, ∀ r' ∈ opcodeTable, ∀ w, r.matchesWord w = true → r'.matchesWord w = true → r = r')
    ∧ (∀ w i, decode w = some i ↔
        ∃ r ∈ opcodeTable, r.matchesWord w = true ∧ r.mnemonic = i.mnemonic ∧ r.operandOf w = i.operand)
    ∧ (∃ legal : List CmdWord, legal.Nodup ∧ legal.length = 776 ∧ ∀ w, w ∈ legal ↔ (decode w).isSome = true)
    ∧ (∃ reserved : List CmdWord, reserved.Nodup ∧ reserved.length = 64760
        ∧ ∀ w, w ∈ reserved ↔ decode w = none)

/-- R47, R88: the words the decoder refuses are exactly those R47 lists, and executing one leaves the state
unchanged and answers `IllegalCommand`. -/
def Obligations.ReservedWordsAnswerIllegalCommand : Prop :=
  (∀ w, decode w = none ↔ wordReserved w = true)
    ∧ ∀ w s, wordReserved w = true →
        executeWord w s = .next { s with rsp := some (answerError .illegalCommand) }

/-- R44: one word of each row, written out as in R44's column "word", decodes to the command it stands for. -/
def Obligations.SampleWordsDecode : Prop :=
  decode 0x0000#16 = some .nop ∧ decode 0x1000#16 = some .ckClr ∧ decode 0x1142#16 = some (.ckAdd 0x42#8)
    ∧ decode 0x1200#16 = some .ckRd ∧ decode 0x1300#16 = some .ckRdd ∧ decode 0x2023#16 = some (.fbApp 0x23#8)
    ∧ decode 0x2100#16 = some .fbLen ∧ decode 0x22FF#16 = some (.fbRdb 0xFF#8) ∧ decode 0x2300#16 = some .fbDet
    ∧ decode 0x2400#16 = some .fbCon ∧ decode 0x2500#16 = some .fbRst

/-- R48, R49: the fields of the response word stand where R48's table puts them, a response can be read back from
its word, and a word is refused exactly when its status code is one of the unassigned 11 to 15. -/
def Obligations.ResponseWordLayout : Prop :=
  (∀ r : Response, r.pack.toNat
      = r.status.code.toNat * 2 ^ 24 + r.d2.toNat * 2 ^ 16 + r.d1.toNat * 2 ^ 8 + r.d0.toNat)
    ∧ (∀ (r : Response) (w : RspWord), Response.unpack w = some r ↔ r.pack = w)
    ∧ ∀ w : RspWord, Response.unpack w = none ↔ 11 ≤ w.toNat / 2 ^ 24

/-- R52: every command, printed in the assembler syntax, reads back as itself. -/
def Obligations.AssemblyReadsBack : Prop := ∀ i : Instr, assemble (assembly i) = some i

/-! ### The step, the port and reset -/

/-- R55: an accepted command word that is let finish is executed by the step, the decoded command by `exec`, a
reserved word by `execReserved`, on the state whose port holds the rest; and `withFetchWord` presents it so. -/
def Obligations.StepRunsAcceptedCommand : Prop :=
  (∀ (s : State) (p : PortSample) (rest : List PortSample), s.Valid → s.port = p :: rest → p.rst = false →
      p.cmdValid = true → p.rstBeforeRsp = false →
      (∀ i, decode p.cmd = some i → step s = exec i { s with port := rest })
        ∧ (decode p.cmd = none → step s = execReserved { s with port := rest }))
    ∧ ∀ (s : State) (i : Instr), s.Valid → step (s.withFetchWord 16 (encode i).toNat) = exec i s

/-- R55: a word on `cmd` while `cmd_valid = 0` has no effect, and neither has a port on which the host presents
nothing: no register and no cell changes and there is no response. -/
def Obligations.UnacceptedWordHasNoEffect : Prop :=
  (∀ (s : State) (p : PortSample) (rest : List PortSample), s.Valid → s.port = p :: rest → p.rst = false →
      p.cmdValid = false → step s = .next { s with port := rest, rsp := none })
    ∧ ∀ s : State, s.Valid → s.port = [] → step s = .next { s with rsp := none }

/-- R123: `rst = 1` makes the state the reset state whatever it was, accepts no command and answers nothing; a
command in flight when `rst` rises is abandoned with none of its effects; after `rst` falls the next sample's
command is accepted; and no event but a reset and a command changes the state. -/
def Obligations.ResetReplacesTheState : Prop :=
  (∀ (s : State) (p : PortSample) (rest : List PortSample), configWellFormed s.config = true →
      s.port = p :: rest → p.rst = true →
      step s = .next { config := s.config, acc := 0, len := 0, mem := [], port := rest, rsp := none }
        ∧ cmdReady p = false ∧ accepted p = false)
    ∧ (∀ (s : State) (p : PortSample) (rest : List PortSample), s.Valid →
        s.port = p :: rest → p.rst = false → p.cmdValid = true → p.rstBeforeRsp = true →
        step s = .next { config := s.config, acc := 0, len := 0, mem := [], port := rest, rsp := none })
    ∧ (∀ (s : State) (i : Instr) (rest : List PortSample), configWellFormed s.config = true →
        s.port = resetSample :: presented (encode i) :: rest →
        ∃ t, step s = .next t ∧ step t = exec i { t with port := rest })
    ∧ ∀ s t : State, step s = .next t → (∀ p, s.port.head? = some p → p.rst = false ∧ accepted p = false) →
        t.acc = s.acc ∧ t.len = s.len ∧ t.mem = s.mem

/-- R26: after reset `ACC` is 0, `LEN` is 0 and no cell holds a value; in the model's reset state and in the state
that a reset leaves, whatever the state before it. -/
def Obligations.ResetValues : Prop :=
  (State.reset.acc = 0 ∧ State.reset.len = 0 ∧ ∀ i, State.reset.mem.read i = none)
    ∧ ∀ s t : State, configWellFormed s.config = true → s.port.head? = some resetSample → step s = .next t →
        t.acc = 0 ∧ t.len = 0 ∧ ∀ i, t.mem.read i = none

/-- R126: straight after reset `CK.RD` answers 0, `FB.LEN` answers 0, `FB.DET` answers `EmptyBuffer` and
`FB.RDB i` answers `IndexOutOfRange` for every `i`; and `CK.CLR`; `FB.RST` leads from any state to the reset state
(but for the response it has just given). -/
def Obligations.AnswersAfterReset : Prop :=
  (∀ s : State,
      exec .ckRd s.afterReset = .next { s.afterReset with rsp := some (answerByte 0) }
        ∧ exec .fbLen s.afterReset = .next { s.afterReset with rsp := some (answerByte 0) }
        ∧ exec .fbDet s.afterReset = .next { s.afterReset with rsp := some (answerError .emptyBuffer) }
        ∧ ∀ i, exec (.fbRdb i) s.afterReset
            = .next { s.afterReset with rsp := some (answerError .indexOutOfRange) })
    ∧ ∀ s : State, runInstrs [.ckClr, .fbRst] s
        = .next ({ s.afterReset with rsp := some answerDone }, [answerDone, answerDone])

/-- R17: the reset state meets the invariant, and so does the state after a reset in every configuration. -/
def Obligations.ResetStateIsValid : Prop :=
  State.reset.Valid ∧ ∀ s : State, configWellFormed s.config = true → s.afterReset.Valid

/-- R17: whatever state a step answers is a state of the block: `LEN <= CAP`, and the cells that hold a value are
exactly those below `LEN`, in canonical form; and the configuration never changes (R5). -/
def Obligations.StepKeepsStateInvariant : Prop :=
  ∀ s t : State, step s = .next t → t.Valid ∧ t.mem.wf ∧ t.config = s.config

/-- R17: in a state that breaks the invariant the step is not defined: it refuses everything but a reset. In a
configuration outside R5 it refuses that too. -/
def Obligations.StepRefusesWhatIsNoState : Prop :=
  (∀ s : State, configWellFormed s.config = false → step s = .refused .notAConfiguration)
    ∧ ∀ s : State, configWellFormed s.config = true → ¬ s.Valid →
        (∀ p, s.port.head? = some p → p.rst = false) → step s = .refused .notAState

/-- R122: in every state of the block every command word has a next state and exactly one response, whose status is
one the block can produce; no command faults and none is refused; and so every step has a next state. -/
def Obligations.EveryCommandHasNextStateAndResponse : Prop :=
  (∀ (w : CmdWord) (s : State), s.Valid →
      ∃ t r, executeWord w s = .next t ∧ t.Valid ∧ t.rsp = some r ∧ r.status.producible = true)
    ∧ (∀ (i : Byte) (s : State), s.len.toNat ≤ i.toNat →
        executeWord (encode (.fbRdb i)) s = .next { s with rsp := some (answerError .indexOutOfRange) })
    ∧ ∀ s : State, s.Valid → ∃ t, step s = .next t

/-- R37: the commands the host presents execute one at a time in the order presented, each on the state the one
before it left, one response each: as many steps as words are the sequence `runWords`. -/
def Obligations.PortOrderIsExecutionOrder : Prop :=
  ∀ (ws : List CmdWord) (rest : List PortSample) (s : State), s.Valid → s.port = ws.map presented ++ rest →
    ∃ t rs, runWords ws { s with port := rest } = .next (t, rs) ∧ rs.length = ws.length
      ∧ rs.getLast? = (if ws = [] then none else t.rsp)
      ∧ Host.Core.run Sys2Proof.core ws.length s = .next t

/-! ### The system family and the Checksum Unit -/

/-- R87: `NOP` changes nothing and answers `Success`; 0x0001 to 0x00FF are not `NOP`. -/
def Obligations.NopChangesNothing : Prop :=
  encode .nop = 0x0000#16 ∧ (∀ s : State, exec .nop s = .next { s with rsp := some answerDone })
    ∧ ∀ w : CmdWord, 1 ≤ w.toNat → w.toNat ≤ 0xFF → decode w = none

/-- R59: `CK.CLR` makes `ACC` 0 and answers `Success`, nothing else changes, it is idempotent, and a `CK.RD`
straight after it answers 0. -/
def Obligations.CkClrClearsAcc : Prop :=
  encode .ckClr = 0x1000#16
    ∧ ∀ s : State, ∃ t, exec .ckClr s = .next t ∧ t = { s with acc := 0, rsp := some answerDone }
        ∧ exec .ckClr t = .next t ∧ exec .ckRd t = .next { t with rsp := some (answerByte 0) }

/-- R60: `CK.ADD b` makes `ACC` the sum modulo 256 and answers `Success`, nothing else changes; `b = 0` leaves
`ACC`, and 256 repetitions of the same `CK.ADD b` return `ACC` to its starting value. -/
def Obligations.CkAddAddsModulo256 : Prop :=
  (∀ b : Byte, encode (.ckAdd b) = BitVec.ofNat 16 (0x1100 + b.toNat))
    ∧ (∀ (s : State) (b : Byte), exec (.ckAdd b) s
        = .next { s with acc := BitVec.ofNat 8 ((s.acc.toNat + b.toNat) % 256), rsp := some answerDone })
    ∧ (∀ s : State, exec (.ckAdd 0) s = .next { s with rsp := some answerDone })
    ∧ ∀ (s : State) (b : Byte), ∃ rs,
        runInstrs (List.replicate 256 (.ckAdd b)) s = .next ({ s with rsp := some answerDone }, rs)

/-- R61: `CK.RD` answers `ACC` in `d0` and changes nothing; twice in a row it gives the same answer. -/
def Obligations.CkRdAnswersAcc : Prop :=
  encode .ckRd = 0x1200#16
    ∧ ∀ s : State, ∃ t, exec .ckRd s = .next t
        ∧ t = { s with rsp := some { status := .success, d2 := 0, d1 := 0, d0 := s.acc } }
        ∧ exec .ckRd t = .next t

/-- R62, with R58's digits: `CK.RDD` answers the hundreds, tens and ones digit of `ACC` in `d2`, `d1`, `d0` and
changes nothing. -/
def Obligations.CkRddAnswersThreeDigits : Prop :=
  encode .ckRdd = 0x1300#16
    ∧ ∀ s : State, ∃ h t o : Byte, exec .ckRdd s
          = .next { s with rsp := some { status := .success, d2 := h, d1 := t, d0 := o } }
        ∧ h.toNat = 0x30 + s.acc.toNat / 100 ∧ t.toNat = 0x30 + s.acc.toNat / 10 % 10
        ∧ o.toNat = 0x30 + s.acc.toNat % 10

/-- R57, R64, R66: `checksum` of nothing is 0, each further byte adds to it modulo 256, a sum may be split, and
the order of the bytes does not matter. -/
def Obligations.ChecksumIsSumModulo256 : Prop :=
  (∀ bytes, checksum bytes 0 = 0)
    ∧ (∀ bytes n b, bytes[n]? = some b → checksum bytes (n + 1) = (checksum bytes n + b.toNat) % 256)
    ∧ (∀ u v : List Byte, checksum (u ++ v) (u ++ v).length
        = (checksum u u.length + checksum v v.length) % 256)
    ∧ (∀ u v : List Byte, u.Perm v → checksum u u.length = checksum v v.length)
    ∧ ∀ a b : Nat, (a % 256 + b) % 256 = (a + b) % 256

/-- R67: changing one byte of the summed range always changes the checksum; swapping two bytes does not, nor does
adding 1 to one and subtracting 1 from another; inserting a byte 0x00 does not. -/
def Obligations.ChecksumSeesOneChangedByte : Prop :=
  (∀ (u v : List Byte) (a b : Byte), a ≠ b →
      checksumByte (u ++ a :: v) ≠ checksumByte (u ++ b :: v))
    ∧ (∀ (u v x : List Byte) (a b : Byte),
        checksumByte (u ++ a :: v ++ b :: x) = checksumByte (u ++ b :: v ++ a :: x)
          ∧ checksumByte (u ++ (a + 1) :: v ++ (b - 1) :: x) = checksumByte (u ++ a :: v ++ b :: x))
    ∧ ∀ u v : List Byte, checksumByte (u ++ 0 :: v) = checksumByte (u ++ v)

/-- R58: `dec3` gives three digit characters, the first of them `0`, `1` or `2`, of which the value can be read
back, so it is injective. -/
def Obligations.Dec3IsInjectiveAndDecimal : Prop :=
  (∀ v : Byte, ∃ h t o : Nat, h ≤ 2 ∧ t ≤ 9 ∧ o ≤ 9 ∧ v.toNat = 100 * h + 10 * t + o
      ∧ dec3 v = (BitVec.ofNat 8 (0x30 + h), BitVec.ofNat 8 (0x30 + t), BitVec.ofNat 8 (0x30 + o)))
    ∧ ∀ v w : Byte, dec3 v = dec3 w → v = w

/-- R65: at every moment `ACC` is the checksum of the operands of the `CK.ADD` commands accepted since the latest
`CK.CLR` or reset; whatever other words, FB commands and reserved words among them, stand between. -/
def Obligations.AccumulatorHoldsChecksum : Prop :=
  (∀ (ws : List CmdWord) (before : List Byte) (s t : State) (rs : List Response),
      s.acc = checksumByte before → runWords ws s = .next (t, rs) →
      t.acc = checksumByte (addedSinceClear ws before))
    ∧ ∀ (ws : List CmdWord) (s : State), configWellFormed s.config = true →
        ∃ t rs, runWords ws s.afterReset = .next (t, rs) ∧ t.acc = checksumByte (addedSinceClear ws [])

/-- R68: a CK command leaves `LEN` and the window unchanged and does not depend on them; an FB command leaves `ACC`
unchanged and does not depend on it, whatever its status; `NOP` and reserved words leave both. -/
def Obligations.UnitsShareNothing : Prop :=
  (∀ (i : Instr) (s t : State), i.unit = 1 → exec i s = .next t →
      t.len = s.len ∧ t.mem = s.mem
        ∧ ∀ (l : Byte) (m : Memory), exec i { s with len := l, mem := m } = .next { t with len := l, mem := m })
    ∧ (∀ (i : Instr) (s t : State), i.unit = 2 → exec i s = .next t →
        t.acc = s.acc ∧ ∀ a : Byte, exec i { s with acc := a } = .next { t with acc := a })
    ∧ ∀ (w : CmdWord) (s t : State), (decode w = none ∨ decode w = some .nop) → executeWord w s = .next t →
        t.acc = s.acc ∧ t.len = s.len ∧ t.mem = s.mem

/-! ### The Frame Buffer -/

/-- R72: `FB.APP b` answers `BufferFull` and changes nothing exactly when `LEN = CAP`; otherwise it stores the byte
at index `LEN`, whatever it is, raises `LEN` by one, leaves every other cell, and answers `Success`; the append that
makes `LEN = CAP` succeeds and the next one fails; and a full window stays full through any command but `FB.CON`,
`FB.RST` and an `FB.DET` that finds no end marker. -/
def Obligations.FbAppAppendsOrIsFull : Prop :=
  (∀ b : Byte, encode (.fbApp b) = BitVec.ofNat 16 (0x2000 + b.toNat))
    ∧ ∀ (s : State) (b : Byte), s.Valid →
        (s.len.toNat = s.config.capacity →
          exec (.fbApp b) s = .next { s with rsp := some (answerError .bufferFull) }
            ∧ ∀ (w : CmdWord) (t : State), executeWord w s = .next t → decode w ≠ some .fbCon →
                decode w ≠ some .fbRst → ¬ (decode w = some .fbDet ∧ detect s = .noEnd) →
                t.len = s.len ∧ t.mem = s.mem)
        ∧ (s.len.toNat ≠ s.config.capacity →
          ∃ (l : Byte) (m : Memory), exec (.fbApp b) s
              = .next { s with len := l, mem := m, rsp := some answerDone }
            ∧ l.toNat = s.len.toNat + 1 ∧ m.read s.len.toNat = some b
            ∧ (∀ a, a ≠ s.len.toNat → m.read a = s.mem.read a)
            ∧ (s.len.toNat + 1 = s.config.capacity → ∀ c : Byte,
                exec (.fbApp c) { s with len := l, mem := m, rsp := some answerDone }
                  = .next { s with len := l, mem := m, rsp := some (answerError .bufferFull) }))

/-- R73: `FB.LEN` answers `LEN` in `d0` and changes nothing. -/
def Obligations.FbLenAnswersLen : Prop :=
  encode .fbLen = 0x2100#16
    ∧ ∀ s : State, exec .fbLen s
        = .next { s with rsp := some { status := .success, d2 := 0, d1 := 0, d0 := s.len } }

/-- R74: `FB.RDB i` answers `MEM[i]` in `d0` when `i < LEN`, and `IndexOutOfRange` with no byte exactly when
`i >= LEN`; the state is unchanged in both cases. -/
def Obligations.FbRdbReadsHeldCells : Prop :=
  (∀ i : Byte, encode (.fbRdb i) = BitVec.ofNat 16 (0x2200 + i.toNat))
    ∧ ∀ (s : State) (i : Byte), s.Valid →
        (i.toNat < s.len.toNat → ∃ b, s.mem.read i.toNat = some b
          ∧ exec (.fbRdb i) s = .next { s with rsp := some { status := .success, d2 := 0, d1 := 0, d0 := b } })
        ∧ (s.len.toNat ≤ i.toNat →
          exec (.fbRdb i) s = .next { s with rsp := some (answerError .indexOutOfRange) })

/-- R69, R70, R71: `detect` has one of four outcomes: no bytes; no start marker; a start marker, the least index
that holds `#`, with no `!` above it; or the span from it to the least `!` above it, inside the window. -/
def Obligations.DetectionMeetsItsDefinition : Prop :=
  ∀ s : State,
    (detect s = .empty ↔ s.len.toNat = 0)
      ∧ (detect s = .noStart ↔ 0 < s.len.toNat ∧ ∀ i, i < s.len.toNat → s.mem.read i ≠ some sof)
      ∧ (detect s = .noEnd ↔ ∃ start, StartAt s start
          ∧ ∀ j, start < j → j < s.len.toNat → s.mem.read j ≠ some eof)
      ∧ (∀ start stop, detect s = .found start stop ↔ StartAt s start ∧ EndAt s start stop)
      ∧ ∀ start stop, detect s = .found start stop →
          start < stop ∧ stop ≤ s.len.toNat - 1 ∧ 2 ≤ stop - start + 1 ∧ stop - start + 1 ≤ s.len.toNat

/-- R75: `FB.DET` answers `EmptyBuffer`, `MissingStartOfFrame` or the span `(E - S + 1, E, S)` and changes nothing,
or, when the end marker is missing, `MissingEndOfFrame` and empties the window. -/
def Obligations.FbDetReportsTheSpan : Prop :=
  encode .fbDet = 0x2300#16
    ∧ ∀ s : State,
        (s.len.toNat = 0 → exec .fbDet s = .next { s with rsp := some (answerError .emptyBuffer) })
        ∧ (0 < s.len.toNat → (∀ i, i < s.len.toNat → s.mem.read i ≠ some sof) →
            exec .fbDet s = .next { s with rsp := some (answerError .missingStartOfFrame) })
        ∧ (∀ start, StartAt s start → (∀ j, start < j → j < s.len.toNat → s.mem.read j ≠ some eof) →
            exec .fbDet s
              = .next { s with len := 0, mem := [], rsp := some (answerError .missingEndOfFrame) })
        ∧ ∀ start stop, StartAt s start → EndAt s start stop →
            ∃ d2 d1 d0 : Byte, exec .fbDet s
                = .next { s with rsp := some { status := .success, d2 := d2, d1 := d1, d0 := d0 } }
              ∧ d2.toNat = stop - start + 1 ∧ d1.toNat = stop ∧ d0.toNat = start

/-- R76: without a complete frame `FB.CON` answers what `FB.DET` answers, and empties the window when the end marker
is missing. On a complete frame it lowers `LEN` to `S`: the cells below `S` keep their bytes and every cell from `S`
upward stops holding one, so that none holds `#`; the response is the one `FB.DET` gives on the state before; a second
`FB.CON` answers `EmptyBuffer` or `MissingStartOfFrame` and changes nothing; and with other words than `FB.CON` and
`FB.RST` between that `FB.DET` and the `FB.CON`, the same span is consumed. -/
def Obligations.FbConTrimsToTheStart : Prop :=
  encode .fbCon = 0x2400#16
    ∧ ∀ s : State,
        (s.len.toNat = 0 → exec .fbCon s = .next { s with rsp := some (answerError .emptyBuffer) })
        ∧ (0 < s.len.toNat → (∀ i, i < s.len.toNat → s.mem.read i ≠ some sof) →
            exec .fbCon s = .next { s with rsp := some (answerError .missingStartOfFrame) })
        ∧ (∀ start, StartAt s start → (∀ j, start < j → j < s.len.toNat → s.mem.read j ≠ some eof) →
            exec .fbCon s
              = .next { s with len := 0, mem := [], rsp := some (answerError .missingEndOfFrame) })
        ∧ ∀ start stop, StartAt s start → EndAt s start stop →
            ∃ (l : Byte) (m : Memory) (r : Response),
              exec .fbCon s = .next { s with len := l, mem := m, rsp := some r }
              ∧ exec .fbDet s = .next { s with rsp := some r }
              ∧ r.status = .success ∧ r.d2.toNat = stop - start + 1 ∧ r.d1.toNat = stop ∧ r.d0.toNat = start
              ∧ l.toNat = start ∧ (∀ i, m.read i = if i < start then s.mem.read i else none)
              ∧ (∀ i, m.read i ≠ some sof)
              ∧ (∃ st : Status, (st = if start = 0 then .emptyBuffer else .missingStartOfFrame)
                  ∧ exec .fbCon { s with len := l, mem := m, rsp := some r }
                    = .next { s with len := l, mem := m, rsp := some (answerError st) })
              ∧ ∀ ws : List CmdWord, s.Valid → (∀ w ∈ ws, endsSpan w = false) →
                  ∃ t rs u, runWords ws s = .next (t, rs) ∧ exec .fbCon t = .next u ∧ u.rsp = some r ∧ u.len = l

/-- R77: `FB.RST` makes `LEN` 0, every cell stops holding a value, `ACC` is unchanged, the answer is `Success`; on
an empty window it changes nothing. -/
def Obligations.FbRstEmptiesTheWindow : Prop :=
  encode .fbRst = 0x2500#16
    ∧ (∀ s : State, exec .fbRst s = .next { s with len := 0, mem := [], rsp := some answerDone })
    ∧ ∀ s : State, s.Valid → s.len = 0 → exec .fbRst s = .next { s with rsp := some answerDone }

/-- R104, R105: each status is answered exactly under its cause, tested on the state before the command; an error
carries no data; and it changes nothing, but that `MissingEndOfFrame` empties the window. The codes are R49's. -/
def Obligations.StatusReportsItsCause : Prop :=
  (∀ (w : CmdWord) (s t : State) (r : Response), s.Valid → executeWord w s = .next t → t.rsp = some r →
      (r.status = .missingStartOfFrame ↔ (decode w = some .fbDet ∨ decode w = some .fbCon)
          ∧ 0 < s.len.toNat ∧ ∀ i, i < s.len.toNat → s.mem.read i ≠ some sof)
      ∧ (r.status = .missingEndOfFrame ↔ (decode w = some .fbDet ∨ decode w = some .fbCon)
          ∧ ∃ start, StartAt s start ∧ ∀ j, start < j → j < s.len.toNat → s.mem.read j ≠ some eof)
      ∧ (r.status = .bufferFull ↔ (∃ b, decode w = some (.fbApp b)) ∧ s.len.toNat = s.config.capacity)
      ∧ (r.status = .emptyBuffer ↔ (decode w = some .fbDet ∨ decode w = some .fbCon) ∧ s.len.toNat = 0)
      ∧ (r.status = .indexOutOfRange ↔ ∃ i, decode w = some (.fbRdb i) ∧ s.len.toNat ≤ i.toNat)
      ∧ (r.status = .illegalCommand ↔ decode w = none)
      ∧ r.status.producible = true
      ∧ (r.status = .missingEndOfFrame →
          t = { s with len := 0, mem := [], rsp := some (answerError .missingEndOfFrame) })
      ∧ (r.status ≠ .success → r.status ≠ .missingEndOfFrame →
          t = { s with rsp := some (answerError r.status) }))
    ∧ Status.success.code = 0 ∧ Status.missingStartOfFrame.code = 1 ∧ Status.missingEndOfFrame.code = 2
    ∧ Status.bufferFull.code = 7 ∧ Status.emptyBuffer.code = 8 ∧ Status.indexOutOfRange.code = 9
    ∧ Status.illegalCommand.code = 10

/-- R83: every FB command keeps the invariant, and `LEN` changes by `+1` only in `FB.APP` with `LEN < CAP`, downward
only in `FB.DET`, `FB.CON` and `FB.RST`, to `0` or to the start of the span, and by no other command. -/
def Obligations.CommandsChangeLenAsStated : Prop :=
  ∀ (i : Instr) (s t : State), s.Valid → exec i s = .next t →
    t.Valid
      ∧ (t.len = s.len
        ∨ (t.len.toNat = s.len.toNat + 1 ∧ s.len.toNat < s.config.capacity ∧ ∃ b, i = .fbApp b)
        ∨ (t.len.toNat < s.len.toNat ∧
            ((t.len = 0 ∧ (i = .fbDet ∨ i = .fbCon ∨ i = .fbRst))
              ∨ (i = .fbCon ∧ StartAt s t.len.toNat))))

/-- R29: no command overwrites a held byte: a cell that holds a value before and after a command holds the same
byte; a cell that newly holds one is the cell at the old `LEN`, written by a successful `FB.APP`. -/
def Obligations.HeldBytesAreNeverOverwritten : Prop :=
  ∀ (w : CmdWord) (s t : State), s.Valid → executeWord w s = .next t →
    (∀ i a b, s.mem.read i = some a → t.mem.read i = some b → a = b)
      ∧ ∀ i b, s.mem.read i = none → t.mem.read i = some b →
          i = s.len.toNat ∧ s.len.toNat < s.config.capacity ∧ decode w = some (.fbApp b)
            ∧ t.rsp = some answerDone

/-- R86, with R18: a cell at or above `LEN` holds no value; so after a command lowers `LEN` no command obtains a byte
that stood at or above the new `LEN`. -/
def Obligations.ErasedCellsCannotBeRead : Prop :=
  (∀ (s : State) (i : Nat), s.Valid → (s.mem.read i = none ↔ s.len.toNat ≤ i))
    ∧ ∀ (w : CmdWord) (s t : State), s.Valid → executeWord w s = .next t → t.len.toNat < s.len.toNat →
        ∀ k : Byte, t.len.toNat ≤ k.toNat →
          t.mem.read k.toNat = none
            ∧ exec (.fbRdb k) t = .next { t with rsp := some (answerError .indexOutOfRange) }

/-- R35: `FB.RDB`, `FB.LEN`, `CK.RD` and `CK.RDD` change nothing and repeat their answer; `FB.DET` too, but after a
`MissingEndOfFrame` a second `FB.DET` answers `EmptyBuffer`; `FB.RST`, `CK.CLR` and `NOP` are idempotent; `FB.APP`,
`FB.CON` and `CK.ADD` are not. -/
def Obligations.ReadsHaveNoSideEffect : Prop :=
  (∀ (i : Instr) (s t : State), ((∃ k, i = .fbRdb k) ∨ i = .fbLen ∨ i = .ckRd ∨ i = .ckRdd) →
      exec i s = .next t → t = { s with rsp := t.rsp } ∧ exec i t = .next t)
    ∧ (∀ s : State, detect s ≠ .noEnd →
        ∃ t, exec .fbDet s = .next t ∧ t = { s with rsp := t.rsp } ∧ exec .fbDet t = .next t)
    ∧ (∀ s : State, detect s = .noEnd → ∃ t, exec .fbDet s = .next t ∧ t.len = 0
        ∧ exec .fbDet t = .next { t with rsp := some (answerError .emptyBuffer) })
    ∧ (∀ (i : Instr) (s t : State), (i = .fbRst ∨ i = .ckClr ∨ i = .nop) → exec i s = .next t →
        exec i t = .next t)
    ∧ (∃ s t : State, s.Valid ∧ exec (.fbApp 0) s = .next t ∧ exec (.fbApp 0) t ≠ .next t)
    ∧ (∃ s t : State, s.Valid ∧ exec .fbCon s = .next t ∧ exec .fbCon t ≠ .next t)
    ∧ ∃ s t : State, s.Valid ∧ exec (.ckAdd 1) s = .next t ∧ exec (.ckAdd 1) t ≠ .next t

/-- R78: a found span survives any sequence of words other than `FB.CON` and `FB.RST`, with the same indices and
the same bytes; so an `FB.CON` after it answers the span that was detected. The index of a start marker survives
appends even while no end marker has arrived. -/
def Obligations.FoundSpanSurvives : Prop :=
  (∀ (ws : List CmdWord) (s : State) (start stop : Nat), s.Valid → detect s = .found start stop →
      (∀ w ∈ ws, endsSpan w = false) →
      ∃ t rs, runWords ws s = .next (t, rs) ∧ detect t = .found start stop
        ∧ (∀ i, i ≤ stop → t.mem.read i = s.mem.read i)
        ∧ ∃ u r, exec .fbCon t = .next u ∧ u.rsp = some r ∧ exec .fbDet s = .next { s with rsp := some r })
    ∧ ∀ (bytes : List Byte) (s : State) (start : Nat), s.Valid → startIndex s = some start →
        ∃ t rs, runInstrs (fbPut bytes) s = .next (t, rs) ∧ startIndex t = some start

/-- R79: after a successful `FB.CON` the window holds the cells below `S` only and none is `#`; so until a `#`
is appended detection finds nothing (a second frame that stood behind the first is never detected), and the
retained bytes stay until an `FB.RST`. -/
def Obligations.ConsumedWindowHasNoStart : Prop :=
  ∀ (s : State) (start stop : Nat), s.Valid → detect s = .found start stop →
    ∃ t, exec .fbCon s = .next t ∧ t.len.toNat = start ∧ (∀ i, t.mem.read i ≠ some sof)
      ∧ detect t = (if start = 0 then .empty else .noStart)
      ∧ ∀ ws : List CmdWord, (∀ w ∈ ws, appendsStart w = false) →
          ∃ u rs, runWords ws t = .next (u, rs) ∧ (detect u = .empty ∨ detect u = .noStart)
            ∧ ((∀ w ∈ ws, emptiesWindow w = false) → ∀ i, i < start → u.mem.read i = s.mem.read i)

/-- R81: a span is found exactly when some `#` is followed by some `!` in the window, and it starts at the lowest
`#`: a `#` inside a frame does not restart it. -/
def Obligations.InnerStartMarkerIsData : Prop :=
  ∀ s : State, ((∃ start stop, detect s = .found start stop)
      ↔ ∃ i j, i < j ∧ j < s.len.toNat ∧ s.mem.read i = some sof ∧ s.mem.read j = some eof)
    ∧ ∀ start stop i, detect s = .found start stop → i < s.len.toNat → s.mem.read i = some sof → start ≤ i

/-- R84: the outcome of detection after one `FB.APP b`, for each outcome before it; a `BufferFull` append leaves the
outcome as it was. -/
def Obligations.OutcomeAfterOneAppend : Prop :=
  ∀ (s t : State) (b : Byte), s.Valid → exec (.fbApp b) s = .next t →
    (s.len.toNat = s.config.capacity → detect t = detect s)
      ∧ (s.len.toNat ≠ s.config.capacity →
        (detect s = .empty → detect t = if b = sof then .noEnd else .noStart)
        ∧ (detect s = .noStart → detect t = if b = sof then .noEnd else .noStart)
        ∧ (∀ start, detect s = .noEnd → startIndex s = some start →
            detect t = if b = eof then .found start s.len.toNat else .noEnd)
        ∧ ∀ start stop, detect s = .found start stop → detect t = .found start stop)

/-- R129: while a frame is partly in the window (its `#` there, no `!` above it), an `FB.DET` or `FB.CON` empties
the window, and the bytes of the frame that arrive afterwards stand in a window without a start marker. -/
def Obligations.EarlyDetectionLosesTheFrame : Prop :=
  ∀ (s : State) (i : Instr) (later : List Byte), s.Valid → detect s = .noEnd → (i = .fbDet ∨ i = .fbCon) →
    sof ∉ later →
    ∃ t u rs, exec i s = .next t
      ∧ t = { s with len := 0, mem := [], rsp := some (answerError .missingEndOfFrame) }
      ∧ runInstrs (fbPut later) t = .next (u, rs) ∧ (detect u = .empty ∨ detect u = .noStart)

/-- R131: a full window stays full, and every append answers `BufferFull`, through any words but `FB.DET`, `FB.CON`
and `FB.RST`. -/
def Obligations.FullWindowStaysFull : Prop :=
  ∀ (ws : List CmdWord) (s : State), s.Valid → s.len.toNat = s.config.capacity →
    (∀ w ∈ ws, mayLowerLen w = false) →
    ∃ t rs, runWords ws s = .next (t, rs) ∧ t.len = s.len ∧ t.mem = s.mem
      ∧ ∀ b : Byte, exec (.fbApp b) t = .next { t with rsp := some (answerError .bufferFull) }

/-- R130: a window full of bytes among which there is no `#` is wedged: through any words but `FB.RST` every byte of
it stays, every `FB.APP` answers `BufferFull` and every `FB.DET` answers `MissingStartOfFrame`. -/
def Obligations.WedgedWindowNeedsReset : Prop :=
  ∀ (ws : List CmdWord) (s : State), s.Valid → Wedged s → (∀ w ∈ ws, emptiesWindow w = false) →
    ∃ t rs, runWords ws s = .next (t, rs) ∧ t.len = s.len ∧ t.mem = s.mem
      ∧ (∀ b : Byte, exec (.fbApp b) t = .next { t with rsp := some (answerError .bufferFull) })
      ∧ exec .fbDet t = .next { t with rsp := some (answerError .missingStartOfFrame) }
      ∧ exec .fbRst t = .next { t with len := 0, mem := [], rsp := some answerDone }

/-! ### The state as a whole -/

/-- R13, R25: the state holds nothing but the configuration, the port and the pair of R13's second view: two
states of the block that agree in those are equal, and every pair with at most `CAP` bytes is a state. -/
def Obligations.NoHiddenState : Prop :=
  (∀ s s' : State, s.Valid → s'.Valid → s.config = s'.config → s.port = s'.port → s.rsp = s'.rsp →
      s.view = s'.view → s = s')
    ∧ ∀ (c : Config) (v : ListView), configWellFormed c = true → v.window.length ≤ c.capacity →
        ∃ s : State, s.Valid ∧ s.config = c ∧ s.view = v

/-- R9, R13: executing any command word in any state of the block is the spec's `step : State x Cmd -> State x Rsp`
over the pair of `ACC` and the list of held bytes: "The two views are the same machine." -/
def Obligations.ListViewIsTheSameMachine : Prop :=
  ∀ (w : CmdWord) (s : State), s.Valid →
    ∃ t, executeWord w s = .next t ∧ t.Valid ∧ t.config = s.config ∧ t.port = s.port
      ∧ t.view = (s.view.step s.config.capacity w).1
      ∧ t.rsp = some (s.view.step s.config.capacity w).2

/-! ### Composite sequences -/

/-- R93: `CKSUM` answers the checksum of its bytes and leaves it in `ACC`, also with commands that do not write
`ACC` interleaved anywhere before its last command. -/
def Obligations.CksumAnswersChecksum : Prop :=
  (∀ (bytes : List Byte) (ws : List CmdWord) (s : State), s.Valid →
      ws.filter writesAcc = (cksumAdds bytes).map encode →
      ∃ t rs, runWords (ws ++ [encode .ckRd]) s = .next (t, rs)
        ∧ rs.getLast? = some (answerByte (checksumByte bytes)) ∧ t.acc = checksumByte bytes)
    ∧ ∀ (bytes : List Byte) (s : State),
        ∃ rs, runInstrs (cksum bytes) s
            = .next ({ s with acc := checksumByte bytes, rsp := some (answerByte (checksumByte bytes)) }, rs)
          ∧ ∀ r ∈ rs, r.status = .success

/-- R94: `CKSUMD` answers the three digits of the checksum of its bytes, from any state. -/
def Obligations.CksumdAnswersDigits : Prop :=
  ∀ (bytes : List Byte) (s : State),
    ∃ rs, runInstrs (cksumd bytes) s
      = .next ({ s with acc := checksumByte bytes,
                        rsp := some { status := .success, d2 := (dec3 (checksumByte bytes)).1,
                                      d1 := (dec3 (checksumByte bytes)).2.1,
                                      d0 := (dec3 (checksumByte bytes)).2.2 } }, rs)

/-- R95: starting from length `L`, the first `min(n, CAP - L)` appends of `FB.PUT` succeed and store their bytes in
order behind the held ones; every later one answers `BufferFull` and stores nothing. -/
def Obligations.FbPutAppendsInOrder : Prop :=
  ∀ (bytes : List Byte) (s : State), s.Valid →
    ∃ t room, room = min bytes.length (s.config.capacity - s.len.toNat)
      ∧ runInstrs (fbPut bytes) s
        = .next (t, List.replicate room answerDone
            ++ List.replicate (bytes.length - room) (answerError .bufferFull))
      ∧ t.window = s.window ++ bytes.take room ∧ t.acc = s.acc ∧ t.Valid

/-- R96: after a detection `(S, E)`, with `E` at most 254, `FB.GET k` answers the `k`-th byte of the span, `#` first and `!` last; past the
span it answers the byte behind it while there is one and `IndexOutOfRange` otherwise. -/
def Obligations.FbGetReadsTheSpan : Prop :=
  ∀ (s : State) (start stop : Nat), s.Valid → detect s = .found start stop →
    stop ≤ 254 ∧ exec (fbGet start 0) s = .next { s with rsp := some (answerByte sof) }
      ∧ exec (fbGet start (stop - start)) s = .next { s with rsp := some (answerByte eof) }
      ∧ (∀ k, start + k < s.len.toNat → ∃ b, s.mem.read (start + k) = some b
          ∧ exec (fbGet start k) s = .next { s with rsp := some (answerByte b) })
      ∧ ∀ k, s.len.toNat ≤ start + k → start + k ≤ 255 →
          exec (fbGet start k) s = .next { s with rsp := some (answerError .indexOutOfRange) }

/-- R98: the host's loop over the cells `a` to `b` inclusive, all of them held, ended by `CK.RD` answers the checksum
of their bytes, and ended by `CK.RDD` its three digits; it leaves the checksum in `ACC` and the window as it was. Where
a cell of the range is not held the host stops at the refused read: the last response is `IndexOutOfRange`, and not a
success with a partial sum (that the host issues nothing more is the model's choice, notes/assumptions 14). -/
def Obligations.SumOfWindowCells : Prop :=
  ∀ (s : State) (a b : Nat), s.Valid → a ≤ b →
    (b < s.len.toNat → ∃ c : Byte, c = checksumByte (cellsFrom s a (b - a + 1))
      ∧ sumWindow a b s = .next { s with acc := c, rsp := some (answerByte c) }
      ∧ sumWindowDigits a b s
        = .next { s with acc := c, rsp := some { status := .success, d2 := (dec3 c).1, d1 := (dec3 c).2.1,
                                                 d0 := (dec3 c).2.2 } })
    ∧ (s.len.toNat ≤ b → b ≤ 255 → ∃ t,
        t = { s with acc := checksumByte (cellsFrom s a (s.len.toNat - a)),
                     rsp := some (answerError .indexOutOfRange) }
        ∧ sumWindow a b s = .next t ∧ sumWindowDigits a b s = .next t)

/-- R99, R101: a wire frame whose identifier and argument bytes hold no `!`, put into an empty window that has room
for it, is detected whole, with indices 0 and `n - 1`, and its checksum field is right; after `FB.CON` the window
is empty. R101 says nothing of a body that its identifier does not allow: that the field is judged by `E` there too is
the model's choice (notes/assumptions 14). -/
def Obligations.WireFrameIsDetectedAndRight : Prop :=
  ∀ (body : List Byte) (s : State), s.Valid → s.len = 0 → body ≠ [] → eof ∉ body →
    body.length + 5 ≤ s.config.capacity →
    ∃ t rs, runInstrs (fbPut (wireFrame body)) s = .next (t, rs) ∧ (∀ r ∈ rs, r = answerDone)
      ∧ detect t = .found 0 (body.length + 4) ∧ frameChecksumRight t 0 (body.length + 4) = true
      ∧ ∃ r, exec .fbCon t = .next { s with len := 0, mem := [], rsp := some r } ∧ r.status = .success
          ∧ r.d2.toNat = body.length + 5 ∧ r.d1.toNat = body.length + 4 ∧ r.d0 = 0

/-- The deliberately false variant of section 6 of `95_test_vectors.md`, the reading that C1 rejects: after a
successful `FB.CON` the bytes behind the frame remain, shifted down. It fails. -/
def Obligations.ClearingKeepsTheBytesBehind : Prop :=
  ∀ (s t : State) (start stop : Nat), s.Valid → detect s = .found start stop → exec .fbCon s = .next t →
    t.window = s.window.take start ++ s.window.drop (stop + 1)
end

