-- ==== Sys2Proof/Laws/State.lean ====
section
/-! SUPPORT. Laws/State.lean: one lemma per field per update of the state, each true by `rfl`. -/

namespace Sys2Proof.Machine

@[simp] theorem State.setAcc_config (s : State) (v : Byte) : (s.setAcc v).config = s.config := rfl
@[simp] theorem State.setAcc_acc (s : State) (v : Byte) : (s.setAcc v).acc = v := rfl
@[simp] theorem State.setAcc_len (s : State) (v : Byte) : (s.setAcc v).len = s.len := rfl
@[simp] theorem State.setAcc_mem (s : State) (v : Byte) : (s.setAcc v).mem = s.mem := rfl
@[simp] theorem State.setAcc_port (s : State) (v : Byte) : (s.setAcc v).port = s.port := rfl
@[simp] theorem State.setAcc_rsp (s : State) (v : Byte) : (s.setAcc v).rsp = s.rsp := rfl

@[simp] theorem State.lowerLen_config (s : State) (n : Nat) : (s.lowerLen n).config = s.config := rfl
@[simp] theorem State.lowerLen_acc (s : State) (n : Nat) : (s.lowerLen n).acc = s.acc := rfl
@[simp] theorem State.lowerLen_len (s : State) (n : Nat) : (s.lowerLen n).len = BitVec.ofNat 8 n := rfl
@[simp] theorem State.lowerLen_mem (s : State) (n : Nat) : (s.lowerLen n).mem = s.mem.eraseFrom n := rfl
@[simp] theorem State.lowerLen_port (s : State) (n : Nat) : (s.lowerLen n).port = s.port := rfl
@[simp] theorem State.lowerLen_rsp (s : State) (n : Nat) : (s.lowerLen n).rsp = s.rsp := rfl

@[simp] theorem State.appendCell_config (s : State) (v : Byte) : (s.appendCell v).config = s.config := rfl
@[simp] theorem State.appendCell_acc (s : State) (v : Byte) : (s.appendCell v).acc = s.acc := rfl
@[simp] theorem State.appendCell_len (s : State) (v : Byte) : (s.appendCell v).len = s.len + 1 := rfl
@[simp] theorem State.appendCell_mem (s : State) (v : Byte) :
    (s.appendCell v).mem = s.mem.write s.len.toNat v := rfl
@[simp] theorem State.appendCell_port (s : State) (v : Byte) : (s.appendCell v).port = s.port := rfl
@[simp] theorem State.appendCell_rsp (s : State) (v : Byte) : (s.appendCell v).rsp = s.rsp := rfl

@[simp] theorem State.idle_config (s : State) : s.idle.config = s.config := rfl
@[simp] theorem State.idle_acc (s : State) : s.idle.acc = s.acc := rfl
@[simp] theorem State.idle_len (s : State) : s.idle.len = s.len := rfl
@[simp] theorem State.idle_mem (s : State) : s.idle.mem = s.mem := rfl
@[simp] theorem State.idle_port (s : State) : s.idle.port = s.port := rfl
@[simp] theorem State.idle_rsp (s : State) : s.idle.rsp = none := rfl

@[simp] theorem State.afterReset_config (s : State) : s.afterReset.config = s.config := rfl
@[simp] theorem State.afterReset_acc (s : State) : s.afterReset.acc = 0 := rfl
@[simp] theorem State.afterReset_len (s : State) : s.afterReset.len = 0 := rfl
@[simp] theorem State.afterReset_mem (s : State) : s.afterReset.mem = [] := rfl
@[simp] theorem State.afterReset_port (s : State) : s.afterReset.port = s.port := rfl
@[simp] theorem State.afterReset_rsp (s : State) : s.afterReset.rsp = none := rfl

@[simp] theorem State.present_config (s : State) (w : CmdWord) : (s.present w).config = s.config := rfl
@[simp] theorem State.present_acc (s : State) (w : CmdWord) : (s.present w).acc = s.acc := rfl
@[simp] theorem State.present_len (s : State) (w : CmdWord) : (s.present w).len = s.len := rfl
@[simp] theorem State.present_mem (s : State) (w : CmdWord) : (s.present w).mem = s.mem := rfl
@[simp] theorem State.present_port (s : State) (w : CmdWord) : (s.present w).port = presented w :: s.port := rfl
@[simp] theorem State.present_rsp (s : State) (w : CmdWord) : (s.present w).rsp = s.rsp := rfl

end Sys2Proof.Machine
end

