-- ==== Sys2Proof/Laws/Memory.lean ====
section
/-!
SUPPORT. Laws/Memory.lean: the window as a list of cells: a read after a write, a write leaves every other cell
alone, every operation keeps the canonical form, and what the invariant says of reads.
-/

namespace Sys2Proof.Machine

@[simp] theorem Memory.read_nil (i : Nat) : Memory.read [] i = none := rfl

@[simp] theorem Memory.read_cons (a : Nat) (b : Byte) (m : Memory) (i : Nat) :
    Memory.read ((a, b) :: m) i = if a = i then some b else Memory.read m i := rfl

theorem Memory.read_write_same (m : Memory) (i : Nat) (v : Byte) : (m.write i v).read i = some v := by
  induction m with
  | nil => simp [Memory.write]
  | cons c m ih =>
    obtain ⟨a, b⟩ := c
    simp only [Memory.write]
    split
    · simp
    · split
      · simp
      · rename_i h1 h2
        simp [ih, Ne.symm h2]

theorem Memory.read_write_other (m : Memory) (i j : Nat) (v : Byte) (h : j ≠ i) :
    (m.write i v).read j = m.read j := by
  induction m with
  | nil => simp [Memory.write, Ne.symm h]
  | cons c m ih =>
    obtain ⟨a, b⟩ := c
    simp only [Memory.write]
    split
    · simp [Ne.symm h]
    · split
      · rename_i h1 h2
        subst h2
        simp [Ne.symm h]
      · simp [ih]

theorem Memory.read_write (m : Memory) (i j : Nat) (v : Byte) :
    (m.write i v).read j = if j = i then some v else m.read j := by
  split
  · rename_i h
    subst h
    exact Memory.read_write_same m j v
  · exact Memory.read_write_other m i j v ‹_›

theorem Memory.read_eraseFrom (m : Memory) (n i : Nat) :
    (m.eraseFrom n).read i = if i < n then m.read i else none := by
  induction m with
  | nil => simp [Memory.eraseFrom]
  | cons c m ih =>
    obtain ⟨a, b⟩ := c
    have ih' : Memory.read (List.filter (fun c => decide (c.1 < n)) m) i = if i < n then Memory.read m i else none := ih
    simp only [Memory.eraseFrom, List.filter_cons]
    by_cases ha : a < n
    · simp only [ha, decide_true, if_true, Memory.read_cons, ih']
      by_cases hai : a = i
      · subst hai; simp [ha]
      · simp [hai]
    · simp only [ha, decide_false, Bool.false_eq_true, if_false, Memory.read_cons, ih']
      by_cases hi : i < n
      · have hai : a ≠ i := by omega
        simp [hi, hai]
      · simp [hi]

@[simp] theorem Memory.eraseFrom_zero (m : Memory) : m.eraseFrom 0 = [] := by
  simp [Memory.eraseFrom]

theorem Memory.eraseFrom_wf {m : Memory} (n : Nat) (h : m.wf) : (m.eraseFrom n).wf :=
  List.Pairwise.sublist (List.filter_sublist.map _) h

theorem Memory.mem_indices_write {m : Memory} {i k : Nat} {v : Byte}
    (h : k ∈ (m.write i v).map Prod.fst) : k = i ∨ k ∈ m.map Prod.fst := by
  induction m with
  | nil => simpa [Memory.write] using h
  | cons c m ih =>
    obtain ⟨a, b⟩ := c
    simp only [Memory.write] at h
    split at h
    · simpa using h
    · split at h
      · simp only [List.map_cons, List.mem_cons] at h ⊢
        rcases h with h | h
        · exact .inl h
        · exact .inr (.inr h)
      · simp only [List.map_cons, List.mem_cons] at h ⊢
        rcases h with h | h
        · exact .inr (.inl h)
        · exact (ih h).imp id .inr

theorem Memory.write_wf {m : Memory} (i : Nat) (v : Byte) (h : m.wf) : (m.write i v).wf := by
  induction m with
  | nil => simp [Memory.write, Memory.wf]
  | cons c m ih =>
    obtain ⟨a, b⟩ := c
    simp only [Memory.wf, List.map_cons, List.pairwise_cons] at h
    simp only [Memory.write]
    split
    · simp only [Memory.wf, List.map_cons, List.pairwise_cons, List.mem_cons]
      refine ⟨?_, h⟩
      rintro k (rfl | hk)
      · assumption
      · have := h.1 k hk; omega
    · split
      · rename_i h1 h2
        subst h2
        simpa [Memory.wf] using h
      · simp only [Memory.wf, List.map_cons, List.pairwise_cons]
        refine ⟨fun k hk => ?_, ih h.2⟩
        rcases Memory.mem_indices_write hk with rfl | hk
        · omega
        · exact h.1 k hk

theorem Memory.write_atEnd {m : Memory} {i : Nat} (v : Byte) (h : ∀ k ∈ m.map Prod.fst, k < i) :
    m.write i v = m ++ [(i, v)] := by
  induction m with
  | nil => rfl
  | cons c m ih =>
    obtain ⟨a, b⟩ := c
    have ha : a < i := h a (by simp)
    have hm : ∀ k ∈ m.map Prod.fst, k < i := fun k hk => h k (by simp only [List.map_cons, List.mem_cons]; exact .inr hk)
    simp only [Memory.write, if_neg (show ¬ i < a by omega), if_neg (show ¬ i = a by omega), ih hm, List.cons_append]

/-- A listed cell reads as its byte when the indices are those from `k` upward. -/
theorem Memory.read_of_indices {m : Memory} {k : Nat} (h : m.map Prod.fst = List.range' k m.length) (i : Nat) :
    m.read i = if k ≤ i then (m.map Prod.snd)[i - k]? else none := by
  induction m generalizing k with
  | nil => simp
  | cons c m ih =>
    obtain ⟨a, b⟩ := c
    simp only [List.map_cons, List.length_cons, List.range'_succ, List.cons.injEq] at h
    obtain ⟨rfl, h⟩ := h
    have ih' := ih h
    simp only [Memory.read_cons, ih', List.map_cons]
    by_cases hai : a = i
    · subst hai; simp
    · by_cases hle : a ≤ i
      · have h1 : a + 1 ≤ i := by omega
        obtain ⟨d, rfl⟩ : ∃ d, i = a + 1 + d := ⟨i - (a + 1), by omega⟩
        have h2 : a + 1 + d - a = d + 1 := by omega
        have h3 : a + 1 + d - (a + 1) = d := by omega
        rw [if_neg hai, if_pos h1, if_pos hle, h2, h3, List.getElem?_cons_succ]
      · have h1 : ¬ a + 1 ≤ i := by omega
        rw [if_neg hai, if_neg h1, if_neg hle]

/-- Two windows in canonical form that read alike are the same list. -/
theorem Memory.ext_of_read {m m' : Memory} {n : Nat} (h : m.map Prod.fst = List.range n)
    (h' : m'.map Prod.fst = List.range n) (hr : ∀ i, m.read i = m'.read i) : m = m' := by
  have e : m.length = n := by simpa using congrArg List.length h
  have e' : m'.length = n := by simpa using congrArg List.length h'
  have hs : m.map Prod.snd = m'.map Prod.snd := by
    apply List.ext_getElem?
    intro i
    have h1 := Memory.read_of_indices (m := m) (k := 0) (by rw [h, e, List.range_eq_range']) i
    have h2 := Memory.read_of_indices (m := m') (k := 0) (by rw [h', e', List.range_eq_range']) i
    simp only [Nat.zero_le, if_true, Nat.sub_zero] at h1 h2
    rw [← h1, ← h2, hr]
  rw [← List.zip_unzip m, ← List.zip_unzip m', List.unzip_eq_map, List.unzip_eq_map, h, h', hs]

/-! ### The invariant -/

section

variable {s : State} (h : s.Valid)
include h

theorem State.Valid.config_ok : 1 ≤ s.config.capacity ∧ s.config.capacity ≤ 255 := by
  have := h.1
  simp only [configWellFormed, Bool.and_eq_true, decide_eq_true_eq] at this
  exact this

theorem State.Valid.len_le : s.len.toNat ≤ s.config.capacity := h.2.1

theorem State.Valid.indices : s.mem.map Prod.fst = List.range s.len.toNat := h.2.2

theorem State.Valid.mem_length : s.mem.length = s.len.toNat := by simpa using congrArg List.length h.indices

theorem State.Valid.window_length : s.window.length = s.len.toNat := by simp [State.window, h.mem_length]

theorem State.Valid.mem_wf : s.mem.wf := by
  unfold Memory.wf
  rw [h.indices]
  exact List.pairwise_lt_range

/-- A read of the window is a look into the list of its bytes. -/
theorem State.Valid.read_eq (i : Nat) : s.mem.read i = s.window[i]? := by
  simpa [State.window] using
    Memory.read_of_indices (m := s.mem) (k := 0) (by rw [h.indices, h.mem_length, List.range_eq_range']) i

theorem State.Valid.read_none_iff (i : Nat) : s.mem.read i = none ↔ s.len.toNat ≤ i := by
  rw [h.read_eq, List.getElem?_eq_none_iff, h.window_length]

theorem State.Valid.read_isSome {i : Nat} (hi : i < s.len.toNat) : ∃ b, s.mem.read i = some b := by
  cases hr : s.mem.read i with
  | none => exact absurd ((h.read_none_iff i).1 hr) (by omega)
  | some b => exact ⟨b, rfl⟩

theorem State.Valid.lt_of_read {i : Nat} {b : Byte} (hr : s.mem.read i = some b) : i < s.len.toNat := by
  by_contra hc
  have := (h.read_none_iff i).2 (by omega)
  rw [hr] at this
  cases this

end

/-- Lowering `LEN` to a length not above it keeps the invariant. -/
theorem State.Valid.lowerLen {s : State} (h : s.Valid) {n : Nat} (hn : n ≤ s.len.toNat) : (s.lowerLen n).Valid := by
  have hlt : s.len.toNat < 256 := s.len.isLt
  have hlen : (s.lowerLen n).len.toNat = n := by simp; omega
  refine ⟨h.1, by rw [hlen]; exact le_trans hn h.len_le, ?_⟩
  rw [hlen, State.lowerLen_mem, Memory.eraseFrom,
    show (fun c : Host.Cell => decide (c.1 < n)) = (fun a : Nat => decide (a < n)) ∘ Prod.fst from rfl,
    ← List.filter_map, h.indices]
  apply List.ext_getElem?
  intro i
  obtain ⟨d, hd⟩ : ∃ d, s.len.toNat = n + d := ⟨s.len.toNat - n, by omega⟩
  rw [hd, List.range_add, List.filter_append]
  have h1 : List.filter (fun a => decide (a < n)) (List.range n) = List.range n := by
    rw [List.filter_eq_self]; intro a ha; simpa using List.mem_range.1 ha
  have h2 : List.filter (fun a => decide (a < n)) ((List.range d).map (n + ·)) = [] := by
    rw [List.filter_eq_nil_iff]; intro a ha
    obtain ⟨b, _, rfl⟩ := List.mem_map.1 ha
    simp
  rw [h1, h2, List.append_nil]

/-- Appending where there is room keeps the invariant. -/
theorem State.Valid.appendCell {s : State} (h : s.Valid) (v : Byte) (hn : s.len.toNat < s.config.capacity) :
    (s.appendCell v).Valid := by
  have hc := h.config_ok
  have hlen : (s.appendCell v).len.toNat = s.len.toNat + 1 := by
    simp [BitVec.toNat_add]; omega
  refine ⟨h.1, by rw [hlen]; exact hn, ?_⟩
  rw [hlen, State.appendCell_mem, Memory.write_atEnd v (fun k hk => by
    rw [h.indices] at hk; exact List.mem_range.1 hk), List.map_append, h.indices, List.range_succ]
  rfl

theorem State.Valid.appendCell_window {s : State} (h : s.Valid) (v : Byte) :
    (s.appendCell v).window = s.window ++ [v] := by
  simp only [State.window, State.appendCell_mem]
  rw [Memory.write_atEnd v (fun k hk => by rw [h.indices] at hk; exact List.mem_range.1 hk)]
  simp

theorem State.Valid.lowerLen_window {s : State} (h : s.Valid) {n : Nat} (hn : n ≤ s.len.toNat) :
    (s.lowerLen n).window = s.window.take n := by
  apply List.ext_getElem?
  intro i
  rw [← (h.lowerLen hn).read_eq, State.lowerLen_mem, Memory.read_eraseFrom, List.getElem?_take, h.read_eq]

/-- The registers and the response port may change without the window. -/
theorem State.Valid.of_window {s t : State} (h : s.Valid) (hc : t.config = s.config) (hl : t.len = s.len)
    (hm : t.mem = s.mem) : t.Valid := by
  unfold State.Valid at h ⊢
  rw [hc, hl, hm]; exact h

theorem State.afterReset_valid {s : State} (h : configWellFormed s.config = true) : s.afterReset.Valid :=
  ⟨h, by simp, by simp⟩

end Sys2Proof.Machine
end

