-- ==== Sys2Proof/Laws/Detect.lean ====
section
/-!
SUPPORT. Laws/Detect.lean: what the scans and the detection compute, said once, in terms of reads of the window.
-/

namespace Sys2Proof.Machine

theorem scanFrom_eq_some {m : Memory} {v : Byte} {i n k : Nat} :
    scanFrom m v i n = some k ↔
      i ≤ k ∧ k < i + n ∧ m.read k = some v ∧ ∀ j, i ≤ j → j < k → m.read j ≠ some v := by
  induction n generalizing i with
  | zero =>
    simp only [scanFrom, Nat.add_zero, reduceCtorEq, false_iff]
    rintro ⟨h1, h2, -⟩
    omega
  | succ n ih =>
    simp only [scanFrom]
    split
    · rename_i h
      simp only [Option.some.injEq]
      constructor
      · rintro rfl
        exact ⟨le_rfl, by omega, h, fun j h1 h2 => absurd h1 (by omega)⟩
      · rintro ⟨h1, h2, h3, h4⟩
        by_contra hne
        exact h4 i le_rfl (by omega) h
    · rename_i h
      rw [ih]
      constructor
      · rintro ⟨h1, h2, h3, h4⟩
        refine ⟨by omega, by omega, h3, fun j h5 h6 => ?_⟩
        by_cases hj : j = i
        · subst hj; exact h
        · exact h4 j (by omega) h6
      · rintro ⟨h1, h2, h3, h4⟩
        have hne : i ≠ k := fun e => h (e ▸ h3)
        exact ⟨by omega, by omega, h3, fun j h5 h6 => h4 j (by omega) h6⟩

theorem scanFrom_eq_none {m : Memory} {v : Byte} {i n : Nat} :
    scanFrom m v i n = none ↔ ∀ j, i ≤ j → j < i + n → m.read j ≠ some v := by
  induction n generalizing i with
  | zero => simp only [scanFrom, true_iff]; intro j h1 h2; omega
  | succ n ih =>
    simp only [scanFrom]
    split
    · rename_i h
      simp only [reduceCtorEq, false_iff]
      exact fun hc => hc i le_rfl (by omega) h
    · rename_i h
      rw [ih]
      constructor
      · intro h1 j h2 h3
        by_cases hj : j = i
        · subst hj; exact h
        · exact h1 j (by omega) (by omega)
      · exact fun h1 j h2 h3 => h1 j (by omega) (by omega)

theorem startIndex_eq_some {s : State} {k : Nat} : startIndex s = some k ↔ StartAt s k := by
  simp only [startIndex, firstIndex, scanFrom_eq_some, StartAt, Nat.sub_zero, Nat.zero_add, Nat.zero_le,
    true_and, true_implies]

theorem startIndex_eq_none {s : State} :
    startIndex s = none ↔ ∀ i, i < s.len.toNat → s.mem.read i ≠ some sof := by
  simp only [startIndex, firstIndex, scanFrom_eq_none, Nat.sub_zero, Nat.zero_add, Nat.zero_le, true_implies]

theorem endIndex_eq_some {s : State} {a k : Nat} : endIndex s a = some k ↔ EndAt s a k := by
  simp only [endIndex, firstIndex, scanFrom_eq_some, EndAt]
  constructor
  · rintro ⟨h1, h2, h3, h4⟩
    exact ⟨by omega, by omega, h3, fun j h5 h6 => h4 j (by omega) h6⟩
  · rintro ⟨h1, h2, h3, h4⟩
    exact ⟨by omega, by omega, h3, fun j h5 h6 => h4 j (by omega) h6⟩

theorem endIndex_eq_none {s : State} {a : Nat} :
    endIndex s a = none ↔ ∀ j, a < j → j < s.len.toNat → s.mem.read j ≠ some eof := by
  simp only [endIndex, firstIndex, scanFrom_eq_none]
  constructor
  · exact fun h j h1 h2 => h j (by omega) (by omega)
  · exact fun h j h1 h2 => h j (by omega) (by omega)

theorem StartAt.unique {s : State} {a b : Nat} (ha : StartAt s a) (hb : StartAt s b) : a = b := by
  have := startIndex_eq_some.2 ha
  rw [startIndex_eq_some.2 hb] at this
  exact (Option.some.inj this).symm

/-- The four ways detection can come out, each with the fact it rests on. -/
theorem detect_cases (s : State) :
    (detect s = .empty ∧ s.len.toNat = 0)
      ∨ (detect s = .noStart ∧ 0 < s.len.toNat ∧ startIndex s = none)
      ∨ (∃ a, detect s = .noEnd ∧ startIndex s = some a ∧ endIndex s a = none)
      ∨ ∃ a e, detect s = .found a e ∧ startIndex s = some a ∧ endIndex s a = some e := by
  unfold detect
  split
  · exact .inl ⟨rfl, ‹_›⟩
  · cases hs : startIndex s with
    | none => exact .inr (.inl ⟨rfl, by omega, rfl⟩)
    | some a =>
      cases he : endIndex s a with
      | none => exact .inr (.inr (.inl ⟨a, by simp [he], rfl, he⟩))
      | some e => exact .inr (.inr (.inr ⟨a, e, by simp [he], rfl, he⟩))

theorem detect_of_len_zero {s : State} (h : s.len.toNat = 0) : detect s = .empty := by simp [detect, h]

theorem detect_of_startIndex_none {s : State} (h0 : 0 < s.len.toNat) (h : startIndex s = none) :
    detect s = .noStart := by
  simp [detect, h, show ¬ s.len.toNat = 0 by omega]

theorem detect_of_endIndex_none {s : State} {a : Nat} (h : startIndex s = some a) (he : endIndex s a = none) :
    detect s = .noEnd := by
  have := (startIndex_eq_some.1 h).1
  simp [detect, h, he, show ¬ s.len.toNat = 0 by omega]

theorem detect_of_endIndex_some {s : State} {a e : Nat} (h : startIndex s = some a) (he : endIndex s a = some e) :
    detect s = .found a e := by
  have := (startIndex_eq_some.1 h).1
  simp [detect, h, he, show ¬ s.len.toNat = 0 by omega]

theorem detect_eq_found {s : State} {a e : Nat} :
    detect s = .found a e ↔ startIndex s = some a ∧ endIndex s a = some e := by
  constructor
  · intro h
    rcases detect_cases s with h' | h' | ⟨a', h'⟩ | ⟨a', e', h'⟩
    · rw [h'.1] at h; cases h
    · rw [h'.1] at h; cases h
    · rw [h'.1] at h; cases h
    · obtain ⟨h1, h2, h3⟩ := h'
      rw [h1] at h; cases h; exact ⟨h2, h3⟩
  · exact fun h => detect_of_endIndex_some h.1 h.2

theorem detect_eq_noEnd {s : State} : detect s = .noEnd ↔ ∃ a, startIndex s = some a ∧ endIndex s a = none := by
  constructor
  · intro h
    rcases detect_cases s with h' | h' | ⟨a', h'⟩ | ⟨a', e', h'⟩
    · rw [h'.1] at h; cases h
    · rw [h'.1] at h; cases h
    · exact ⟨a', h'.2⟩
    · rw [h'.1] at h; cases h
  · exact fun ⟨a, h1, h2⟩ => detect_of_endIndex_none h1 h2

theorem detect_eq_noStart {s : State} : detect s = .noStart ↔ 0 < s.len.toNat ∧ startIndex s = none := by
  constructor
  · intro h
    rcases detect_cases s with h' | h' | ⟨a', h'⟩ | ⟨a', e', h'⟩
    · rw [h'.1] at h; cases h
    · exact h'.2
    · rw [h'.1] at h; cases h
    · rw [h'.1] at h; cases h
  · exact fun h => detect_of_startIndex_none h.1 h.2

theorem detect_eq_empty {s : State} : detect s = .empty ↔ s.len.toNat = 0 := by
  constructor
  · intro h
    rcases detect_cases s with h' | h' | ⟨a', h'⟩ | ⟨a', e', h'⟩
    · exact h'.2
    · rw [h'.1] at h; cases h
    · rw [h'.1] at h; cases h
    · rw [h'.1] at h; cases h
  · exact detect_of_len_zero

/-- Detection depends on `LEN` and on the reads below it only. -/
theorem detect_congr {s t : State} (hl : t.len = s.len)
    (hr : ∀ i, i < s.len.toNat → t.mem.read i = s.mem.read i) : detect t = detect s := by
  have hst : ∀ a, StartAt t a ↔ StartAt s a := by
    intro a
    simp only [StartAt, hl]
    constructor
    · rintro ⟨h1, h2, h3⟩
      exact ⟨h1, by rw [← hr a h1]; exact h2, fun i hi => by rw [← hr i (by omega)]; exact h3 i hi⟩
    · rintro ⟨h1, h2, h3⟩
      exact ⟨h1, by rw [hr a h1]; exact h2, fun i hi => by rw [hr i (by omega)]; exact h3 i hi⟩
  have hen : ∀ a e, EndAt t a e ↔ EndAt s a e := by
    intro a e
    simp only [EndAt, hl]
    constructor
    · rintro ⟨h0, h1, h2, h3⟩
      exact ⟨h0, h1, by rw [← hr e h1]; exact h2, fun i hi hi' => by rw [← hr i (by omega)]; exact h3 i hi hi'⟩
    · rintro ⟨h0, h1, h2, h3⟩
      exact ⟨h0, h1, by rw [hr e h1]; exact h2, fun i hi hi' => by rw [hr i (by omega)]; exact h3 i hi hi'⟩
  have hs : startIndex t = startIndex s := by
    apply Option.ext; intro a
    rw [startIndex_eq_some, startIndex_eq_some]; exact hst a
  have he : ∀ a, endIndex t a = endIndex s a := by
    intro a
    apply Option.ext; intro e
    rw [endIndex_eq_some, endIndex_eq_some]; exact hen a e
  simp only [detect, hl, hs, he]

/-- The span of a found frame lies inside the window. -/
theorem found_bounds {s : State} {a e : Nat} (h : detect s = .found a e) : a < e ∧ e < s.len.toNat ∧ e < 255 := by
  have := endIndex_eq_some.1 (detect_eq_found.1 h).2
  have hl := s.len.isLt
  exact ⟨this.1, this.2.1, by have := this.2.1; omega⟩

end Sys2Proof.Machine
end

