-- ==== Sys2Proof/Laws/Encoding.lean ====
section
/-!
SUPPORT. Laws/Encoding.lean: the fields of a command word as numbers (`30_encoding.md` R41).
-/

namespace Sys2Proof

theorem cmdWord_toNat (unit fn : BitVec 4) (imm : Byte) :
    (cmdWord unit fn imm).toNat = unit.toNat * 4096 + fn.toNat * 256 + imm.toNat := by
  simp only [cmdWord, BitVec.toNat_append]
  have := fn.isLt
  have := imm.isLt
  rw [← Nat.shiftLeft_add_eq_or_of_lt imm.isLt, ← Nat.shiftLeft_add_eq_or_of_lt fn.isLt]
  simp only [Nat.shiftLeft_eq]
  omega

theorem cmdOpcode_toNat (w : CmdWord) : (cmdOpcode w).toNat = w.toNat / 256 := by
  have := w.isLt
  simp [cmdOpcode, BitVec.extractLsb'_toNat, Nat.shiftRight_eq_div_pow]
  omega

theorem cmdImm_toNat (w : CmdWord) : (cmdImm w).toNat = w.toNat % 256 := by
  simp [cmdImm, BitVec.extractLsb'_toNat]

/-- The number of each command's word, from R44's column "word". -/
theorem encode_toNat (i : Instr) : (encode i).toNat = match i with
    | .nop => 0 | .ckClr => 0x1000 | .ckAdd b => 0x1100 + b.toNat | .ckRd => 0x1200 | .ckRdd => 0x1300
    | .fbApp b => 0x2000 + b.toNat | .fbLen => 0x2100 | .fbRdb b => 0x2200 + b.toNat | .fbDet => 0x2300
    | .fbCon => 0x2400 | .fbRst => 0x2500 := by
  cases i <;> simp only [encode] <;> rw [cmdWord_toNat] <;> simp

end Sys2Proof
end

