-- ==== Sys2Proof/Laws/Exec.lean ====
section
/-!
SUPPORT. Laws/Exec.lean: what each shared operation can do, and what the execution of any word in a state of the
block can do, said once (`executeWord_cases`).
-/

namespace Sys2Proof.Machine

@[simp] theorem respond_eq (st : Status) (a b c : Byte) (s : State) :
    respond st a b c s = .next { s with rsp := some { status := st, d2 := a, d1 := b, d0 := c } } := rfl

@[simp] theorem respondDone_eq (s : State) : respondDone s = .next { s with rsp := some answerDone } := rfl

@[simp] theorem respondError_eq (st : Status) (s : State) :
    respondError st s = .next { s with rsp := some (answerError st) } := rfl

@[simp] theorem countByte_toNat_of_lt {n : Nat} (h : n < 256) : (countByte n).toNat = n := by
  simp [countByte, Nat.mod_eq_of_lt h]

@[simp] theorem countByte_toNat (b : Byte) : countByte b.toNat = b := by simp [countByte]

theorem addMod256_eq_add (a b : Byte) : addMod256 a b = a + b := by
  apply BitVec.eq_of_toNat_eq
  simp [addMod256, countByte, BitVec.toNat_add]

theorem executeWord_of_decode {w : CmdWord} {i : Instr} (h : decode w = some i) (s : State) :
    executeWord w s = exec i s := by simp [executeWord, h]

theorem executeWord_of_reserved {w : CmdWord} (h : decode w = none) (s : State) :
    executeWord w s = .next { s with rsp := some (answerError .illegalCommand) } := by
  simp [executeWord, h, execReserved]

/-! ### `exec`, arm by arm -/

theorem exec_nop (s : State) : exec .nop s = execNop s := rfl
theorem exec_ckClr (s : State) : exec .ckClr s = execCkClr s := rfl
theorem exec_ckAdd (b : Byte) (s : State) : exec (.ckAdd b) s = execCkAdd b s := rfl
theorem exec_ckRd (s : State) : exec .ckRd s = execCkRd s := rfl
theorem exec_ckRdd (s : State) : exec .ckRdd s = execCkRdd s := rfl
theorem exec_fbApp (b : Byte) (s : State) : exec (.fbApp b) s = execFbApp b s := rfl
theorem exec_fbLen (s : State) : exec .fbLen s = execFbLen s := rfl
theorem exec_fbRdb (k : Byte) (s : State) : exec (.fbRdb k) s = execFbRdb k s := rfl
theorem exec_fbRst (s : State) : exec .fbRst s = execFbRst s := rfl
theorem exec_fbDet (s : State) : exec .fbDet s = answerDetection (fun _ t => t) s := rfl
theorem exec_fbCon (s : State) : exec .fbCon s = answerDetection (fun a t => t.lowerLen a) s := rfl

/-! ### The detecting commands -/

theorem answerDetection_empty (f : Nat → State → State) {s : State} (h : detect s = .empty) :
    answerDetection f s = .next { s with rsp := some (answerError .emptyBuffer) } := by
  simp [answerDetection, h, Detection.status]

theorem answerDetection_noStart (f : Nat → State → State) {s : State} (h : detect s = .noStart) :
    answerDetection f s = .next { s with rsp := some (answerError .missingStartOfFrame) } := by
  simp [answerDetection, h, Detection.status]

theorem answerDetection_noEnd (f : Nat → State → State) {s : State} (h : detect s = .noEnd) :
    answerDetection f s
      = .next { s with len := 0, mem := [], rsp := some (answerError .missingEndOfFrame) } := by
  simp [answerDetection, h, Detection.status, State.lowerLen]

theorem answerDetection_found (f : Nat → State → State) {s : State} {a e : Nat} (h : detect s = .found a e) :
    answerDetection f s
      = .next { f a s with rsp := some { status := .success, d2 := countByte (e - a + 1), d1 := countByte e,
                                         d0 := countByte a } } := by
  simp [answerDetection, h, Detection.status]

/-! ### The load and the store -/

theorem execFbApp_full {s : State} (b : Byte) (h : s.len.toNat = s.config.capacity) :
    execFbApp b s = .next { s with rsp := some (answerError .bufferFull) } := by
  simp [execFbApp, bufferFull, h]

theorem execFbApp_room {s : State} (b : Byte) (h : s.len.toNat < s.config.capacity) :
    execFbApp b s = .next { s.appendCell b with rsp := some answerDone } := by
  simp [execFbApp, bufferFull, storeCell, h, Nat.ne_of_lt h, operandData]

theorem execFbRdb_refused {s : State} (i : Byte) (h : s.len.toNat ≤ i.toNat) :
    execFbRdb i s = .next { s with rsp := some (answerError .indexOutOfRange) } := by
  simp [execFbRdb, indexOutOfRange, operandIndex, h]

theorem execFbRdb_held {s : State} (i : Byte) {b : Byte} (h : i.toNat < s.len.toNat)
    (hr : s.mem.read i.toNat = some b) :
    execFbRdb i s = .next { s with rsp := some (answerByte b) } := by
  simp [execFbRdb, indexOutOfRange, operandIndex, Nat.not_le.2 h, loadCell, hr, answerByte]

/-- Outside the states of the block: a cell below `LEN` that holds no value. -/
theorem execFbRdb_noValue {s : State} (i : Byte) (h : i.toNat < s.len.toNat) (hr : s.mem.read i.toNat = none) :
    execFbRdb i s = .fault (.cellHoldsNoValue i.toNat) := by
  simp [execFbRdb, indexOutOfRange, operandIndex, Nat.not_le.2 h, loadCell, hr]

/-! ### The host's loop over cells -/

@[simp] theorem addCells_zero (k : Nat) (ending : State → Host.Outcome State Fault Refusal) (s : State) :
    addCells k 0 ending s = ending s := rfl

/-- A held cell is added, and the loop goes on. -/
theorem addCells_held {s : State} {k n : Nat} {b : Byte} (ending : State → Host.Outcome State Fault Refusal)
    (hk : k < s.len.toNat) (hr : s.mem.read k = some b) :
    addCells k (n + 1) ending s
      = addCells (k + 1) n ending { s with acc := addMod256 s.acc b, rsp := some answerDone } := by
  have hc : (countByte k).toNat = k := countByte_toNat_of_lt (by have := s.len.isLt; omega)
  have h1 : exec (.fbRdb (countByte k)) s = .next { s with rsp := some (answerByte b) } :=
    execFbRdb_held _ (by rw [hc]; exact hk) (by rw [hc]; exact hr)
  simp only [addCells, h1, answerByte]
  rfl

/-- A refused read ends the loop, whatever was to follow. -/
theorem addCells_refused {s : State} {k : Nat} (n : Nat) (ending : State → Host.Outcome State Fault Refusal)
    (hk : s.len.toNat ≤ k) (hb : k ≤ 255) :
    addCells k (n + 1) ending s = .next { s with rsp := some (answerError .indexOutOfRange) } := by
  have h1 : exec (.fbRdb (countByte k)) s = .next { s with rsp := some (answerError .indexOutOfRange) } :=
    execFbRdb_refused _ (by rw [countByte_toNat_of_lt (by omega)]; exact hk)
  simp only [addCells, h1, answerError]

/-! ### One word, in a state of the block -/

/-- Everything the execution of a word can do to a state of the block, by the field it changes. -/
inductive WordEffect (w : CmdWord) (s : State) : State → Prop where
  /-- Only the response: a read, an error that changes nothing, `NOP`, a successful `FB.DET`, a reserved word. -/
  | same (r : Response) (hacc : writesAcc w = false) (hrst : emptiesWindow w = false)
      (happ : ∀ b, decode w = some (.fbApp b) → s.len.toNat = s.config.capacity)
      (hdet : decode w = some .fbDet ∨ decode w = some .fbCon → detect s ≠ .noEnd)
      (hcon : decode w = some .fbCon → ∀ a e, detect s ≠ .found a e) :
      WordEffect w s { s with rsp := some r }
  /-- `CK.CLR`. -/
  | clear (h : decode w = some .ckClr) : WordEffect w s { s with acc := 0, rsp := some answerDone }
  /-- `CK.ADD`. -/
  | add (b : Byte) (h : decode w = some (.ckAdd b)) :
      WordEffect w s { s with acc := s.acc + b, rsp := some answerDone }
  /-- A successful `FB.APP`. -/
  | append (b : Byte) (h : decode w = some (.fbApp b)) (hroom : s.len.toNat < s.config.capacity) :
      WordEffect w s { s.appendCell b with rsp := some answerDone }
  /-- The window is emptied by `FB.RST`. -/
  | emptied (h : decode w = some .fbRst) :
      WordEffect w s { s with len := 0, mem := [], rsp := some answerDone }
  /-- The window is emptied by a detection that finds no end marker. -/
  | dropped (h : decode w = some .fbDet ∨ decode w = some .fbCon) (hd : detect s = .noEnd) :
      WordEffect w s { s with len := 0, mem := [], rsp := some (answerError .missingEndOfFrame) }
  /-- A successful `FB.CON`. -/
  | trimmed (a e : Nat) (r : Response) (h : decode w = some .fbCon) (hd : detect s = .found a e) :
      WordEffect w s { s.lowerLen a with rsp := some r }

/-- In a state of the block every word has a next state, and its effect is one of those. -/
theorem executeWord_cases {s : State} (hv : s.Valid) (w : CmdWord) :
    ∃ t, executeWord w s = .next t ∧ WordEffect w s t := by
  cases hd : decode w with
  | none =>
    exact ⟨_, executeWord_of_reserved hd s, .same _ (by simp [writesAcc, hd]) (by simp [emptiesWindow, hd])
      (by simp [hd]) (by simp [hd]) (by simp [hd])⟩
  | some i =>
    rw [executeWord_of_decode hd]
    have same : ∀ r, writesAcc w = false → emptiesWindow w = false → (∀ b, i ≠ .fbApp b) → i ≠ .fbDet →
        i ≠ .fbCon → WordEffect w s { s with rsp := some r } := by
      intro r h1 h2 h3 h4 h5
      exact .same r h1 h2 (fun b hb => absurd (Option.some.inj (hd.symm.trans hb)) (h3 b))
        (fun h => h.elim (fun h => absurd (Option.some.inj (hd.symm.trans h)) h4)
          (fun h => absurd (Option.some.inj (hd.symm.trans h)) h5))
        (fun h => absurd (Option.some.inj (hd.symm.trans h)) h5)
    have hacc : ∀ j, decode w = some j → j ≠ .ckClr → (∀ b, j ≠ .ckAdd b) → writesAcc w = false := by
      intro j hj h1 h2
      unfold writesAcc
      rw [hj]
      split
      · rename_i h; exact absurd (Option.some.inj h) h1
      · rename_i h; exact absurd (Option.some.inj h) (h2 _)
      · rfl
    cases i with
    | nop => exact ⟨_, rfl, same _ (hacc _ hd (by simp) (by simp)) (by simp [emptiesWindow, hd]) (by simp) (by simp) (by simp)⟩
    | ckClr => exact ⟨_, rfl, .clear hd⟩
    | ckAdd b =>
      refine ⟨_, rfl, ?_⟩
      have := WordEffect.add (w := w) (s := s) b hd
      rwa [← addMod256_eq_add] at this
    | ckRd => exact ⟨_, rfl, same _ (hacc _ hd (by simp) (by simp)) (by simp [emptiesWindow, hd]) (by simp) (by simp) (by simp)⟩
    | ckRdd => exact ⟨_, rfl, same _ (hacc _ hd (by simp) (by simp)) (by simp [emptiesWindow, hd]) (by simp) (by simp) (by simp)⟩
    | fbApp b =>
      by_cases h : s.len.toNat = s.config.capacity
      · exact ⟨_, execFbApp_full b h, .same _ (hacc _ hd (by simp) (by simp)) (by simp [emptiesWindow, hd])
          (fun _ _ => h) (by simp [hd]) (by simp [hd])⟩
      · have hr : s.len.toNat < s.config.capacity := by have := hv.len_le; omega
        exact ⟨_, execFbApp_room b hr, .append b hd hr⟩
    | fbLen => exact ⟨_, rfl, same _ (hacc _ hd (by simp) (by simp)) (by simp [emptiesWindow, hd]) (by simp) (by simp) (by simp)⟩
    | fbRdb k =>
      have hs := fun r => same r (hacc _ hd (by simp) (by simp)) (by simp [emptiesWindow, hd]) (by simp) (by simp) (by simp)
      by_cases h : s.len.toNat ≤ k.toNat
      · exact ⟨_, execFbRdb_refused k h, hs _⟩
      · obtain ⟨b, hb⟩ := hv.read_isSome (i := k.toNat) (by omega)
        exact ⟨_, execFbRdb_held k (by omega) hb, hs _⟩
    | fbDet =>
      have hs := fun r (hne : detect s ≠ .noEnd) => WordEffect.same (w := w) (s := s) r
        (hacc _ hd (by simp) (by simp)) (by simp [emptiesWindow, hd]) (by simp [hd]) (fun _ => hne) (by simp [hd])
      rcases detect_cases s with h | h | ⟨a, h⟩ | ⟨a, e, h⟩
      · exact ⟨_, answerDetection_empty (fun _ t => t) h.1, hs _ (by simp [h.1])⟩
      · exact ⟨_, answerDetection_noStart (fun _ t => t) h.1, hs _ (by simp [h.1])⟩
      · exact ⟨_, answerDetection_noEnd (fun _ t => t) h.1, .dropped (.inl hd) h.1⟩
      · exact ⟨_, answerDetection_found (fun _ t => t) h.1, hs _ (by simp [h.1])⟩
    | fbCon =>
      have hs := fun r (hne : detect s ≠ .noEnd) (hnf : ∀ a e, detect s ≠ .found a e) =>
        WordEffect.same (w := w) (s := s) r (hacc _ hd (by simp) (by simp)) (by simp [emptiesWindow, hd])
          (by simp [hd]) (fun _ => hne) (fun _ => hnf)
      rcases detect_cases s with h | h | ⟨a, h⟩ | ⟨a, e, h⟩
      · exact ⟨_, answerDetection_empty (fun a t => t.lowerLen a) h.1, hs _ (by simp [h.1]) (by simp [h.1])⟩
      · exact ⟨_, answerDetection_noStart (fun a t => t.lowerLen a) h.1, hs _ (by simp [h.1]) (by simp [h.1])⟩
      · exact ⟨_, answerDetection_noEnd (fun a t => t.lowerLen a) h.1, .dropped (.inr hd) h.1⟩
      · exact ⟨_, answerDetection_found (fun a t => t.lowerLen a) h.1, .trimmed a e _ hd h.1⟩
    | fbRst =>
      refine ⟨_, rfl, ?_⟩
      have := WordEffect.emptied (w := w) (s := s) hd
      rwa [← Memory.eraseFrom_zero s.mem] at this

/-- A word's effect leaves the configuration and the port. -/
theorem WordEffect.config_port {w : CmdWord} {s t : State} (h : WordEffect w s t) :
    t.config = s.config ∧ t.port = s.port := by
  cases h <;> exact ⟨rfl, rfl⟩

/-- A word's effect keeps the invariant. -/
theorem WordEffect.valid {w : CmdWord} {s t : State} (hv : s.Valid) (h : WordEffect w s t) : t.Valid := by
  cases h with
  | same r => exact hv.of_window rfl rfl rfl
  | clear => exact hv.of_window rfl rfl rfl
  | add b => exact hv.of_window rfl rfl rfl
  | append b hd hroom => exact (hv.appendCell b hroom).of_window rfl rfl rfl
  | emptied => exact ⟨hv.1, by simp, by simp⟩
  | dropped => exact ⟨hv.1, by simp, by simp⟩
  | trimmed a e r hd hf =>
    have := found_bounds hf
    exact (hv.lowerLen (n := a) (by omega)).of_window rfl rfl rfl

/-- A sequence of words, by its first word. -/
theorem runWords_cons {w : CmdWord} {ws : List CmdWord} {s t : State} (h : executeWord w s = .next t) :
    runWords (w :: ws) s =
      match runWords ws t with
      | .next (u, rs) => .next (u, t.rsp.toList ++ rs)
      | .fault f => .fault f
      | .refused r => .refused r := by
  cases hr : runWords ws t <;> simp [runWords, h, hr]

/-- A property that every word keeps holds after every sequence: the induction over sequences, packaged. -/
theorem runWords_induction {P : State → Prop} {good : CmdWord → Prop}
    (hstep : ∀ w s t, good w → s.Valid → P s → executeWord w s = .next t → WordEffect w s t → P t) :
    ∀ (ws : List CmdWord) (s : State), s.Valid → P s → (∀ w ∈ ws, good w) →
      ∃ t rs, runWords ws s = .next (t, rs) ∧ t.Valid ∧ P t := by
  intro ws
  induction ws with
  | nil => exact fun s hv hp _ => ⟨s, [], rfl, hv, hp⟩
  | cons w ws ih =>
    intro s hv hp hg
    obtain ⟨t, ht, he⟩ := executeWord_cases hv w
    obtain ⟨u, rs, hu, hvu, hpu⟩ := ih t (he.valid hv) (hstep w s t (hg w (by simp)) hv hp ht he)
      (fun w' hw' => hg w' (by simp [hw']))
    exact ⟨u, t.rsp.toList ++ rs, by rw [runWords_cons ht, hu], hvu, hpu⟩

end Sys2Proof.Machine
end

