-- ==== Sys2Proof/Laws/PerInstr.lean ====
section
/-!
SUPPORT. Laws/PerInstr.lean: the statement made for every command of `Instr`, one lemma per constructor: no
command's word is one of the reserved words that `30_encoding.md` R47 lists, whatever its operand.
-/

namespace Sys2Proof.Laws

/-- The word of the command is none of R47's reserved words. -/
def EncodesWellFormed.Statement (i : Instr) : Prop := wordWellFormed (encode i) = true

theorem EncodesWellFormed.nop : EncodesWellFormed.Statement .nop := by
  unfold EncodesWellFormed.Statement; decide

theorem EncodesWellFormed.ckClr : EncodesWellFormed.Statement .ckClr := by
  unfold EncodesWellFormed.Statement; decide

/-- A format I word with an opcode that no clause of R47 names. -/
theorem wordWellFormed_of_operand {w : CmdWord} {op : Nat} (b : Byte) (h : w.toNat = op * 256 + b.toNat)
    (hop : op = 0x11 ∨ op = 0x20 ∨ op = 0x22) : wordWellFormed w = true := by
  have := b.isLt
  have hr : ¬ wordReserved w = true := by
    simp only [wordReserved, Bool.or_eq_true, Bool.and_eq_true, decide_eq_true_eq]
    simp only [wordUnit, wordFn, wordLow, formatNOpcodes, List.mem_cons, List.not_mem_nil, or_false]
    rcases hop with rfl | rfl | rfl <;> omega
  simp [wordWellFormed, hr]

theorem EncodesWellFormed.ckAdd (b : Byte) : EncodesWellFormed.Statement (.ckAdd b) :=
  wordWellFormed_of_operand (op := 0x11) b (encode_toNat (.ckAdd b)) (.inl rfl)

theorem EncodesWellFormed.ckRd : EncodesWellFormed.Statement .ckRd := by
  unfold EncodesWellFormed.Statement; decide

theorem EncodesWellFormed.ckRdd : EncodesWellFormed.Statement .ckRdd := by
  unfold EncodesWellFormed.Statement; decide

theorem EncodesWellFormed.fbApp (b : Byte) : EncodesWellFormed.Statement (.fbApp b) :=
  wordWellFormed_of_operand (op := 0x20) b (encode_toNat (.fbApp b)) (.inr (.inl rfl))

theorem EncodesWellFormed.fbLen : EncodesWellFormed.Statement .fbLen := by
  unfold EncodesWellFormed.Statement; decide

theorem EncodesWellFormed.fbRdb (b : Byte) : EncodesWellFormed.Statement (.fbRdb b) :=
  wordWellFormed_of_operand (op := 0x22) b (encode_toNat (.fbRdb b)) (.inr (.inr rfl))

theorem EncodesWellFormed.fbDet : EncodesWellFormed.Statement .fbDet := by
  unfold EncodesWellFormed.Statement; decide

theorem EncodesWellFormed.fbCon : EncodesWellFormed.Statement .fbCon := by
  unfold EncodesWellFormed.Statement; decide

theorem EncodesWellFormed.fbRst : EncodesWellFormed.Statement .fbRst := by
  unfold EncodesWellFormed.Statement; decide

end Sys2Proof.Laws
end

