-- ==== Sys2Proof/Laws/Step.lean ====
section
/-!
SUPPORT. Laws/Step.lean: what one step can do, said once (`step_cases`): a reset, the execution of an accepted
word, or nothing.
-/

namespace Sys2Proof.Machine

theorem step_cons {s : State} {p : PortSample} {rest : List PortSample} (h : s.port = p :: rest) :
    step s = portStep p { s with port := rest } := by
  simp [step, stepPort, h]

theorem step_nil {s : State} (h : s.port = []) : step s = quietStep s := by
  simp [step, stepPort, h]

theorem onState_valid {s : State} (h : s.Valid) (k : State → Host.Outcome State Fault Refusal) :
    onState s k = k s := by
  simp only [onState, h.1, if_true, if_pos h]

theorem onState_next {s t : State} {k : State → Host.Outcome State Fault Refusal}
    (h : onState s k = .next t) : s.Valid ∧ k s = .next t := by
  unfold onState at h
  split at h
  · split at h
    · exact ⟨‹_›, h⟩
    · cases h
  · cases h

theorem onReset_next {s t : State} (h : onReset s = .next t) :
    configWellFormed s.config = true ∧ t = s.afterReset := by
  unfold onReset at h
  split at h
  · cases h; exact ⟨‹_›, rfl⟩
  · cases h

theorem State.Valid.withPort {s : State} (h : s.Valid) (q : List PortSample) :
    State.Valid { s with port := q } := h.of_window rfl rfl rfl

/-- A sample that resets, or whose command is abandoned by a reset: the state after is the reset state. -/
theorem step_cases {s t : State} (h : step s = .next t) :
    (∃ p q, s.port = p :: q ∧ (p.rst = true ∨ (accepted p = true ∧ p.rstBeforeRsp = true))
        ∧ configWellFormed s.config = true ∧ t = ({ s with port := q } : State).afterReset)
    ∨ (∃ p q, s.Valid ∧ s.port = p :: q ∧ accepted p = true
        ∧ executeWord p.cmd { s with port := q } = .next t)
    ∨ (s.Valid ∧ ∃ q, t = { s with port := q, rsp := none }) := by
  cases hp : s.port with
  | nil =>
    rw [step_nil hp, quietStep] at h
    have := onState_next h
    refine .inr (.inr ⟨this.1, [], ?_⟩)
    cases this.2
    simp [State.idle, hp]
  | cons p q =>
    rw [step_cons hp] at h
    unfold portStep at h
    split at h
    · have := onReset_next h
      exact .inl ⟨p, q, rfl, .inl ‹_›, this.1, this.2⟩
    · obtain ⟨hv, h2⟩ := onState_next h
      have hv : s.Valid := hv.of_window rfl rfl rfl
      split at h2
      · unfold acceptCommand at h2
        split at h2
        · have := onReset_next h2
          exact .inl ⟨p, q, rfl, .inr ⟨‹_›, ‹_›⟩, this.1, this.2⟩
        · exact .inr (.inl ⟨p, q, hv, rfl, ‹_›, h2⟩)
      · cases h2
        exact .inr (.inr ⟨hv, q, rfl⟩)

end Sys2Proof.Machine
end

