-- ==== Sys2Proof/Tests/Slice0.lean ====
section
/-!
SUPPORT. Tests/Slice0.lean: the smoke tests of the checks, the decoding of words written out from `30_encoding.md`
R44, one or two vectors of `95_test_vectors.md` per command (each named after its vector), and for every claim with
hypotheses a witness that meets them. No expected result was taken from the model.
-/

namespace Sys2Proof.Tests

open Sys2Proof.Machine

/-- The ASCII codes of characters. -/
def bytes (text : List Char) : List Byte := text.map (fun c => BitVec.ofNat 8 c.toNat)

/-- A state with the given capacity, `ACC` and held bytes; the host presents nothing. -/
def hold (capacity : Nat) (acc : Byte) (window : List Byte) : State :=
  { config := { capacity := capacity }, acc := acc, len := BitVec.ofNat 8 window.length,
    mem := (List.range window.length).zip window, port := [], rsp := none }

/-- The same state with something on the port. -/
def onPort (port : List PortSample) (s : State) : State := { s with port := port }

/-- The next state, if the outcome is one. -/
def nextOf {σ : Type} (o : Host.Outcome σ Fault Refusal) : Option σ :=
  match o with
  | .next t => some t
  | .fault _ => none
  | .refused _ => none

theorem eq_next_of_nextOf {σ : Type} {o : Host.Outcome σ Fault Refusal} {t : σ} (h : nextOf o = some t) :
    o = .next t := by
  cases o with
  | next u => simp [nextOf] at h; rw [h]
  | fault f => simp [nextOf] at h
  | refused r => simp [nextOf] at h

/-- The refusal, if the outcome is one. -/
def refusalOf {σ : Type} (o : Host.Outcome σ Fault Refusal) : Option Refusal :=
  match o with
  | .next _ => none
  | .fault _ => none
  | .refused r => some r

/-- No word of a list has the property, by running through the list. -/
theorem none_of_all {ws : List CmdWord} {p : CmdWord → Bool} (h : ws.all (fun w => !p w) = true) :
    ∀ w ∈ ws, p w = false := by simpa using h

/-- What one step with the word presented first leaves: `ACC`, `LEN`, the window, and the response word. -/
def seen (w : Nat) (s : State) : Option (Byte × Byte × List Byte × Option RspWord) :=
  (nextOf (step (s.withFetchWord 16 w))).map fun t => (t.acc, t.len, t.window, t.rspWord)

def digits16 : List Byte := bytes ['0', '1', '2', '3', '4', '5', '6', '7', '8', '9', 'A', 'B', 'C', 'D', 'E', 'F']
def digits15 : List Byte := bytes ['0', '1', '2', '3', '4', '5', '6', '7', '8', '9', 'A', 'B', 'C', 'D', 'E']
def frameB : List Byte := bytes ['#', 'B', '0', '6', '6', '!']
def junkFrame : List Byte := bytes ['x', 'y', '#', 'L', '1', '1', '2', '5', '!', '#', 'B', '0']
def partialFrame : List Byte := bytes ['#', 'U', '0', '2', '1']
def noStart : List Byte := bytes ['B', '0', '6', '6', '!']

/-! ### The checks refuse what is ill-formed (R47 clause by clause; R5) -/

theorem test_check_refuses_unit_3_and_15 : wordWellFormed 0x3000 = false ∧ wordWellFormed 0xFFFF = false := by decide
theorem test_check_refuses_unit_0 : wordWellFormed 0x0001 = false ∧ wordWellFormed 0x0FFF = false := by decide
theorem test_check_refuses_unit_1 : wordWellFormed 0x1400 = false ∧ wordWellFormed 0x1FFF = false := by decide
theorem test_check_refuses_unit_2 : wordWellFormed 0x2600 = false ∧ wordWellFormed 0x2FFF = false := by decide
theorem test_check_refuses_low_byte :
    wordWellFormed 0x1001 = false ∧ wordWellFormed 0x12FF = false ∧ wordWellFormed 0x1301 = false
      ∧ wordWellFormed 0x2101 = false ∧ wordWellFormed 0x2301 = false ∧ wordWellFormed 0x2401 = false
      ∧ wordWellFormed 0x2501 = false := by decide
theorem test_check_accepts_operands : wordWellFormed 0x11FF = true ∧ wordWellFormed 0x22FF = true := by decide
theorem test_check_capacity :
    configWellFormed { capacity := 0 } = false ∧ configWellFormed { capacity := 256 } = false
      ∧ configWellFormed { capacity := 1 } = true ∧ configWellFormed { capacity := 255 } = true := by decide

/-! ### Decoding: the words of R44, unit, fn and low byte written out bit by bit -/

theorem test_decode_nop : decode 0b0000000000000000#16 = some .nop := by decide
theorem test_decode_ckClr : decode 0b0001000000000000#16 = some .ckClr := by decide
theorem test_decode_ckAdd : decode 0b0001000110000010#16 = some (.ckAdd 0x82) := by decide
theorem test_decode_ckRd : decode 0b0001001000000000#16 = some .ckRd := by decide
theorem test_decode_ckRdd : decode 0b0001001100000000#16 = some .ckRdd := by decide
theorem test_decode_fbApp : decode 0b0010000000100011#16 = some (.fbApp 0x23) := by decide
theorem test_decode_fbLen : decode 0b0010000100000000#16 = some .fbLen := by decide
theorem test_decode_fbRdb : decode 0b0010001010000001#16 = some (.fbRdb 0x81) := by decide
theorem test_decode_fbDet : decode 0b0010001100000000#16 = some .fbDet := by decide
theorem test_decode_fbCon : decode 0b0010010000000000#16 = some .fbCon := by decide
theorem test_decode_fbRst : decode 0b0010010100000000#16 = some .fbRst := by decide
/-- V-ENC-2 to V-ENC-12. -/
theorem test_decode_reserved :
    [0x0001#16, 0x0100#16, 0x1001#16, 0x12FF#16, 0x1400#16, 0x1F00#16, 0x2101#16, 0x2501#16, 0x2600#16, 0x3000#16,
      0xFFFF#16].all (fun w => decode w == none) = true := by decide
theorem test_decodeTableWord : decodeTableWord 16 0x1142 = some (.ckAdd 0x42) ∧ decodeTableWord 16 0x1001 = none := by
  decide

/-! ### Vectors of `95_test_vectors.md`, one step each -/

theorem test_V_ENC_1_nop : seen 0x0000 (hold 16 0x42 (bytes ['x', 'y']))
    = some (0x42, 2, bytes ['x', 'y'], some 0x0000000) := by decide
theorem test_V_ENC_4_reserved : seen 0x1001 (hold 16 0x42 (bytes ['x', 'y']))
    = some (0x42, 2, bytes ['x', 'y'], some 0xA000000) := by decide
theorem test_V_CK_10_clr : seen 0x1000 (hold 16 0xCE []) = some (0x00, 0, [], some 0x0000000) := by decide
theorem test_V_CK_4_add : seen 0x11FF (hold 16 0xFF []) = some (0xFE, 0, [], some 0x0000000) := by decide
theorem test_V_CK_8_add : seen 0x1130 (hold 16 0xF2 []) = some (0x22, 0, [], some 0x0000000) := by decide
theorem test_V_ENC_13_rd : seen 0x1200 (hold 16 0x42 (bytes ['x', 'y']))
    = some (0x42, 2, bytes ['x', 'y'], some 0x0000042) := by decide
theorem test_V_CK_23_rdd : seen 0x1300 (hold 16 99 []) = some (99, 0, [], some 0x0303939) := by decide
theorem test_V_CK_27_rdd : seen 0x1300 (hold 16 255 []) = some (255, 0, [], some 0x0323535) := by decide
theorem test_V_FB_3_app : seen 0x2046 (hold 16 7 digits15) = some (7, 16, digits16, some 0x0000000) := by decide
theorem test_V_FB_4_app : seen 0x2058 (hold 16 7 digits16) = some (7, 16, digits16, some 0x7000000) := by decide
theorem test_V_FB_5_len : seen 0x2100 (hold 16 7 digits16) = some (7, 16, digits16, some 0x0000010) := by decide
theorem test_V_FB_7_rdb : seen 0x220F (hold 16 7 digits16) = some (7, 16, digits16, some 0x0000046) := by decide
theorem test_V_FB_8_rdb : seen 0x2210 (hold 16 7 digits16) = some (7, 16, digits16, some 0x9000000) := by decide
theorem test_V_FB_13_det : seen 0x2300 (hold 16 7 (bytes ['a', 'b', '#'])) = some (7, 0, [], some 0x2000000) := by
  decide
theorem test_V_FB_16_det : seen 0x2300 (hold 16 7 junkFrame) = some (7, 12, junkFrame, some 0x0070802) := by decide
theorem test_V_FB_21_con : seen 0x2400 (hold 16 7 junkFrame)
    = some (7, 2, bytes ['x', 'y'], some 0x0070802) := by decide
theorem test_V_FB_25_con : seen 0x2400 (hold 16 7 noStart) = some (7, 5, noStart, some 0x1000000) := by decide
theorem test_V_FB_30_rst : seen 0x2500 (hold 16 7 frameB) = some (7, 0, [], some 0x0000000) := by decide
/-- V-RST-1, as the first instruction after reset. -/
theorem test_V_RST_1 : seen 0x1300 State.reset = some (0, 0, [], some 0x0303030)
    ∧ seen 0x2200 State.reset = some (0, 0, [], some 0x9000000) := by decide

/-- R123: `rst` high in a state with content. -/
theorem test_reset_sample :
    (nextOf (step (onPort [resetSample] (hold 16 0x42 frameB)))).map (fun t => (t.acc, t.len, t.mem, t.rspValid))
      = some (0, 0, [], false) := by decide

/-! ### Worked examples of the source (S2, S5) and the assembler syntax (R52, with the listing of P4) -/

theorem test_S2_checksum : checksum (bytes ['b', '0', '0', '0', '0']) 5 = 34 ∧ dec3 34 = (0x30, 0x33, 0x34) := by
  decide
/-- P2: the host's sum of the cells 1 to 1 of `#B066!`, ended by `CK.RDD`, answers `066`. -/
theorem test_P2_sumWindowDigits :
    (nextOf (sumWindowDigits 1 1 (hold 16 0 frameB))).map (fun t => (t.acc, t.rspWord))
      = some (0x42, some 0x0303636) := by decide
theorem test_S5_frame : wireFrame (bytes ['U', '0', '2']) = bytes ['#', 'U', '0', '2', '1', '8', '3', '!'] := by decide
theorem test_assemble :
    assemble ['C', 'K', '.', 'A', 'D', 'D', ' ', '\'', 'B', '\''] = some (.ckAdd 0x42)
      ∧ assemble ['C', 'K', '.', 'A', 'D', 'D', ' ', '0', 'x', '4', 'C', ' ', ' ', ';', 'L'] = some (.ckAdd 0x4C)
      ∧ assemble ['F', 'B', '.', 'R', 'D', 'B', ' ', '1', '6'] = some (.fbRdb 16)
      ∧ assemble ['F', 'B', '.', 'R', 'D', 'B', ' ', '2', '5', '6'] = none := by decide

/-! ### Witnesses: for each claim with hypotheses, a state and operands that meet them, clause by clause -/

theorem witness_DecoderFollowsOpcodeTable :
    (∃ r ∈ opcodeTable, ∃ r' ∈ opcodeTable, r.matchesWord 0x11FF = true ∧ r'.matchesWord 0x11FF = true)
      ∧ ∃ r ∈ opcodeTable, r.matchesWord 0x2500 = true := by decide

theorem witness_ReservedWordsAnswerIllegalCommand :
    wordReserved 0x3000 = true ∧ wordReserved 0x0001 = true ∧ wordReserved 0x1400 = true
      ∧ wordReserved 0x2600 = true ∧ wordReserved 0x2501 = true := by decide

theorem witness_StepRunsAcceptedCommand :
    (∃ (s : State) (p : PortSample) (rest : List PortSample), s.Valid ∧ s.port = p :: rest ∧ p.rst = false
        ∧ p.cmdValid = true ∧ p.rstBeforeRsp = false ∧ decode p.cmd = some .ckRd)
      ∧ ∃ (s : State) (p : PortSample) (rest : List PortSample), s.Valid ∧ s.port = p :: rest ∧ p.rst = false
        ∧ p.cmdValid = true ∧ p.rstBeforeRsp = false ∧ decode p.cmd = none :=
  ⟨⟨onPort [presented 0x1200, resetSample] (hold 16 0x42 frameB), presented 0x1200, [resetSample], by decide⟩,
    ⟨onPort [presented 0x1001] (hold 1 0 []), presented 0x1001, [], by decide⟩⟩

theorem witness_UnacceptedWordHasNoEffect :
    (∃ (s : State) (p : PortSample) (rest : List PortSample), s.Valid ∧ s.port = p :: rest ∧ p.rst = false
        ∧ p.cmdValid = false)
      ∧ ∃ s : State, s.Valid ∧ s.port = [] :=
  ⟨⟨onPort [{ presented 0x1000 with cmdValid := false }] (hold 16 0x42 frameB),
      { presented 0x1000 with cmdValid := false }, [], by decide⟩,
    ⟨hold 16 0x42 frameB, by decide⟩⟩

theorem witness_ResetReplacesTheState :
    (∃ (s : State) (p : PortSample) (rest : List PortSample), configWellFormed s.config = true
        ∧ s.port = p :: rest ∧ p.rst = true)
      ∧ (∃ (s : State) (p : PortSample) (rest : List PortSample), s.Valid ∧ s.port = p :: rest ∧ p.rst = false
        ∧ p.cmdValid = true ∧ p.rstBeforeRsp = true)
      ∧ (∃ (s : State) (rest : List PortSample), configWellFormed s.config = true
        ∧ s.port = resetSample :: presented (encode (.ckAdd 1)) :: rest)
      ∧ ∃ s t : State, step s = .next t ∧ ∀ p, s.port.head? = some p → p.rst = false ∧ accepted p = false :=
  ⟨⟨onPort [{ presented 0x1142 with rst := true }] (hold 16 0x42 frameB),
      { presented 0x1142 with rst := true }, [], by decide⟩,
    ⟨onPort [{ presented 0x1142 with rstBeforeRsp := true }] (hold 16 0x42 frameB),
      { presented 0x1142 with rstBeforeRsp := true }, [], by decide⟩,
    ⟨onPort [resetSample, presented (encode (.ckAdd 1))] (hold 255 0 []), [], by decide⟩,
    ⟨hold 16 0x42 frameB, hold 16 0x42 frameB, eq_next_of_nextOf (by decide), by decide⟩⟩

theorem witness_ResetValues :
    ∃ s t : State, configWellFormed s.config = true ∧ s.port.head? = some resetSample ∧ step s = .next t :=
  ⟨onPort [resetSample] (hold 16 0x42 frameB), hold 16 0 [], by decide, by decide, eq_next_of_nextOf (by decide)⟩

theorem witness_ResetStateIsValid :
    configWellFormed (hold 1 0 []).config = true ∧ configWellFormed (hold 255 0 []).config = true := by decide

theorem witness_StepKeepsStateInvariant : ∃ s t : State, step s = .next t ∧ t.len ≠ s.len ∧ t.rsp ≠ none :=
  ⟨onPort [presented 0x2023] (hold 1 0 []), { hold 1 0 [0x23] with rsp := some answerDone },
    eq_next_of_nextOf (by decide), by decide, by decide⟩

theorem witness_StepRefusesWhatIsNoState :
    (∃ s : State, configWellFormed s.config = false ∧ refusalOf (step s) = some .notAConfiguration)
      ∧ ∃ s : State, configWellFormed s.config = true ∧ ¬ s.Valid
        ∧ ∀ p, s.port.head? = some p → p.rst = false :=
  ⟨⟨hold 256 0 [], by decide⟩, ⟨hold 1 0 [0, 0], by decide⟩⟩

theorem witness_EveryCommandHasNextStateAndResponse :
    (hold 1 0 [0x23]).Valid ∧ (hold 255 0 []).Valid ∧ (hold 2 0 [1, 2]).len.toNat ≤ (0x02 : Byte).toNat
      ∧ (hold 2 0 [1, 2]).len.toNat ≤ (0xFF : Byte).toNat := by decide

theorem witness_PortOrderIsExecutionOrder :
    ∃ (ws : List CmdWord) (rest : List PortSample) (s : State), s.Valid ∧ s.port = ws.map presented ++ rest
      ∧ ws ≠ [] ∧ rest ≠ [] :=
  ⟨[0x1142, 0x1001, 0x2023], [resetSample],
    onPort [presented 0x1142, presented 0x1001, presented 0x2023, resetSample] (hold 16 0 []), by decide⟩

theorem witness_NopChangesNothing :
    (1 ≤ (0x0001 : CmdWord).toNat ∧ (0x0001 : CmdWord).toNat ≤ 0xFF)
      ∧ 1 ≤ (0x00FF : CmdWord).toNat ∧ (0x00FF : CmdWord).toNat ≤ 0xFF := by decide

theorem witness_ChecksumIsSumModulo256 :
    ([1, 2] : List Byte)[1]? = some 2 ∧ ([1, 2] : List Byte).Perm [2, 1] := by decide

theorem witness_ChecksumSeesOneChangedByte : (0x00 : Byte) ≠ 0xFF := by decide

theorem witness_Dec3IsInjectiveAndDecimal : dec3 0xFF = dec3 0xFF := rfl

theorem witness_AccumulatorHoldsChecksum :
    (∃ (ws : List CmdWord) (before : List Byte) (s : State) (u : State × List Response),
        s.acc = checksumByte before ∧ runWords ws s = .next u ∧ before ≠ [] ∧ u.2.length = ws.length)
      ∧ configWellFormed (hold 16 0 []).config = true :=
  ⟨⟨[0x11FF, 0x2023, 0x3000], [1], hold 16 1 [], ({ hold 16 0 [0x23] with rsp := some (answerError .illegalCommand) },
      [answerDone, answerDone, answerError .illegalCommand]), by decide, eq_next_of_nextOf (by decide), by decide,
      by decide⟩, by decide⟩

theorem witness_UnitsShareNothing :
    (∃ (i : Instr) (s t : State), i.unit = 1 ∧ exec i s = .next t)
      ∧ (∃ (i : Instr) (s t : State), i.unit = 2 ∧ exec i s = .next t)
      ∧ (∃ s t : State, decode 0x1001 = none ∧ executeWord 0x1001 s = .next t)
      ∧ ∃ s t : State, decode 0x0000 = some .nop ∧ executeWord 0x0000 s = .next t :=
  ⟨⟨.ckAdd 1, hold 16 0xFF frameB, { hold 16 0 frameB with rsp := some answerDone }, rfl,
      eq_next_of_nextOf (by decide)⟩,
    ⟨.fbRst, hold 16 7 frameB, { hold 16 7 [] with rsp := some answerDone }, rfl, eq_next_of_nextOf (by decide)⟩,
    ⟨hold 16 7 frameB, { hold 16 7 frameB with rsp := some (answerError .illegalCommand) }, by decide,
      eq_next_of_nextOf (by decide)⟩,
    ⟨hold 16 7 frameB, { hold 16 7 frameB with rsp := some answerDone }, by decide,
      eq_next_of_nextOf (by decide)⟩⟩

theorem witness_FbAppAppendsOrIsFull :
    (∃ s t : State, s.Valid ∧ s.len.toNat = s.config.capacity ∧ executeWord 0x2300 s = .next t
        ∧ decode 0x2300 ≠ some .fbCon ∧ decode 0x2300 ≠ some .fbRst
        ∧ ¬ (decode 0x2300 = some .fbDet ∧ detect s = .noEnd))
      ∧ ∃ s : State, s.Valid ∧ s.len.toNat ≠ s.config.capacity ∧ s.len.toNat + 1 = s.config.capacity :=
  ⟨⟨hold 1 0 [0x78], { hold 1 0 [0x78] with rsp := some (answerError .missingStartOfFrame) }, by decide, by decide,
      eq_next_of_nextOf (by decide), by decide, by decide, by decide⟩,
    ⟨hold 1 0 [], by decide⟩⟩

theorem witness_FbRdbReadsHeldCells :
    (∃ (s : State) (i : Byte), s.Valid ∧ i.toNat + 1 = s.len.toNat)
      ∧ ∃ (s : State) (i : Byte), s.Valid ∧ i.toNat = s.len.toNat :=
  ⟨⟨hold 16 0 digits16, 15, by decide⟩, ⟨hold 16 0 digits16, 16, by decide⟩⟩

/-- One state for each outcome; `#!` is the shortest span, in a window that it fills. -/
theorem witness_DetectionMeetsItsDefinition :
    detect (hold 16 0 []) = .empty ∧ detect (hold 16 0 noStart) = .noStart
      ∧ detect (hold 16 0 (bytes ['a', 'b', '#'])) = .noEnd ∧ detect (hold 2 0 [sof, eof]) = .found 0 1 := by decide

theorem start_at_zero : StartAt (hold 16 0 partialFrame) 0 := startIndex_eq_some.1 (by decide)

theorem no_end_in_partialFrame (j : Nat) (h : 0 < j) (h' : j < (hold 16 0 partialFrame).len.toNat) :
    (hold 16 0 partialFrame).mem.read j ≠ some eof := (endIndex_eq_none (a := 0)).1 (by decide) j h h'

theorem span_in_junkFrame : StartAt (hold 16 0 junkFrame) 2 ∧ EndAt (hold 16 0 junkFrame) 2 8 :=
  ⟨startIndex_eq_some.1 (by decide), endIndex_eq_some.1 (by decide)⟩

theorem span_that_fills : StartAt (hold 2 0 [sof, eof]) 0 ∧ EndAt (hold 2 0 [sof, eof]) 0 1 :=
  ⟨startIndex_eq_some.1 (by decide), endIndex_eq_some.1 (by decide)⟩

theorem no_start_in_noStart (i : Nat) (h : i < (hold 16 0 noStart).len.toNat) :
    (hold 16 0 noStart).mem.read i ≠ some sof := startIndex_eq_none.1 (by decide) i h

theorem witness_FbDetReportsTheSpan :
    (∃ s : State, s.len.toNat = 0)
      ∧ (∃ s : State, 0 < s.len.toNat ∧ ∀ i, i < s.len.toNat → s.mem.read i ≠ some sof)
      ∧ (∃ (s : State) (start : Nat), StartAt s start
        ∧ ∀ j, start < j → j < s.len.toNat → s.mem.read j ≠ some eof)
      ∧ ∃ (s : State) (start stop : Nat), StartAt s start ∧ EndAt s start stop :=
  ⟨⟨hold 16 0 [], by decide⟩, ⟨hold 16 0 noStart, by decide, no_start_in_noStart⟩,
    ⟨hold 16 0 partialFrame, 0, start_at_zero, no_end_in_partialFrame⟩,
    ⟨hold 2 0 [sof, eof], 0, 1, span_that_fills⟩⟩

theorem witness_FbConTrimsToTheStart :
    (∃ s : State, s.len.toNat = 0)
      ∧ (∃ s : State, 0 < s.len.toNat ∧ ∀ i, i < s.len.toNat → s.mem.read i ≠ some sof)
      ∧ (∃ (s : State) (start : Nat), StartAt s start
        ∧ ∀ j, start < j → j < s.len.toNat → s.mem.read j ≠ some eof)
      ∧ (∃ (s : State) (start stop : Nat), start = 0 ∧ StartAt s start ∧ EndAt s start stop)
      ∧ ∃ (s : State) (start stop : Nat) (ws : List CmdWord), start ≠ 0 ∧ StartAt s start ∧ EndAt s start stop
        ∧ s.Valid ∧ ws ≠ [] ∧ ∀ w ∈ ws, endsSpan w = false :=
  ⟨⟨hold 16 0 [], by decide⟩, ⟨hold 16 0 noStart, by decide, no_start_in_noStart⟩,
    ⟨hold 16 0 partialFrame, 0, start_at_zero, no_end_in_partialFrame⟩,
    ⟨hold 2 0 [sof, eof], 0, 1, rfl, span_that_fills⟩,
    ⟨hold 16 0 junkFrame, 2, 8, [0x2023, 0x2300, 0x1101], by decide, span_in_junkFrame.1, span_in_junkFrame.2,
      by decide, by decide, none_of_all (by decide)⟩⟩

theorem witness_FbRstEmptiesTheWindow : (hold 255 9 []).Valid ∧ (hold 255 9 []).len = 0 := by decide

/-- The status that one word answers on a state. -/
def statusOf (w : CmdWord) (s : State) : Option Status := (nextOf (executeWord w s)).bind fun t => t.rsp.map (·.status)

/-- For each status of the block a state of the block and a word that has a next state with that answer. -/
theorem witness_StatusReportsItsCause :
    (hold 16 0 noStart).Valid ∧ (hold 16 0 partialFrame).Valid ∧ (hold 1 0 [0x23]).Valid ∧ (hold 16 0 []).Valid
      ∧ statusOf 0x2300 (hold 16 0 noStart) = some .missingStartOfFrame
      ∧ statusOf 0x2400 (hold 16 0 partialFrame) = some .missingEndOfFrame
      ∧ statusOf 0x2021 (hold 1 0 [0x23]) = some .bufferFull
      ∧ statusOf 0x2300 (hold 16 0 []) = some .emptyBuffer
      ∧ statusOf 0x2201 (hold 1 0 [0x23]) = some .indexOutOfRange
      ∧ statusOf 0x3000 (hold 16 0 []) = some .illegalCommand
      ∧ statusOf 0x1000 (hold 16 0 []) = some .success := by decide

theorem witness_CommandsChangeLenAsStated :
    ∃ s t : State, s.Valid ∧ exec .fbCon s = .next t ∧ t.len.toNat = 2 ∧ s.len.toNat = 12 :=
  ⟨hold 16 0 junkFrame,
    { hold 16 0 (bytes ['x', 'y']) with rsp := some { status := .success, d2 := 7, d1 := 8, d0 := 2 } }, by decide,
    eq_next_of_nextOf (by decide), by decide, by decide⟩

theorem witness_HeldBytesAreNeverOverwritten :
    ∃ s t : State, s.Valid ∧ executeWord 0x2021 s = .next t
      ∧ s.mem.read 0 = some 0x23 ∧ t.mem.read 0 = some 0x23 ∧ s.mem.read 1 = none ∧ t.mem.read 1 = some 0x21 :=
  ⟨hold 2 0 [0x23], { hold 2 0 [0x23, 0x21] with rsp := some answerDone }, by decide,
    eq_next_of_nextOf (by decide), by decide⟩

theorem witness_ErasedCellsCannotBeRead :
    ∃ (s t : State) (k : Byte), s.Valid ∧ executeWord 0x2400 s = .next t ∧ t.len.toNat < s.len.toNat
      ∧ t.len.toNat = k.toNat :=
  ⟨hold 16 0 junkFrame,
    { hold 16 0 (bytes ['x', 'y']) with rsp := some { status := .success, d2 := 7, d1 := 8, d0 := 2 } }, 2, by decide,
    eq_next_of_nextOf (by decide), by decide, by decide⟩

theorem witness_ReadsHaveNoSideEffect :
    (∃ s t : State, exec (.fbRdb 0) s = .next t) ∧ (∃ s t : State, exec .ckRdd s = .next t)
      ∧ (∃ s t : State, exec .fbLen s = .next t) ∧ (∃ s t : State, exec .ckRd s = .next t)
      ∧ detect (hold 16 0 junkFrame) ≠ .noEnd ∧ detect (hold 16 0 partialFrame) = .noEnd
      ∧ ∃ s t : State, exec .fbRst s = .next t :=
  ⟨⟨hold 1 0 [0x23], { hold 1 0 [0x23] with rsp := some (answerByte 0x23) }, eq_next_of_nextOf (by decide)⟩,
    ⟨hold 1 0 [], { hold 1 0 [] with rsp := some { status := .success, d2 := 0x30, d1 := 0x30, d0 := 0x30 } },
      eq_next_of_nextOf (by decide)⟩,
    ⟨hold 1 0 [], { hold 1 0 [] with rsp := some (answerByte 0) }, eq_next_of_nextOf (by decide)⟩,
    ⟨hold 1 9 [], { hold 1 9 [] with rsp := some (answerByte 9) }, eq_next_of_nextOf (by decide)⟩,
    by decide, by decide,
    ⟨hold 1 0 [0x23], { hold 1 0 [] with rsp := some answerDone }, eq_next_of_nextOf (by decide)⟩⟩

theorem witness_FoundSpanSurvives :
    (∃ (ws : List CmdWord) (s : State), s.Valid ∧ detect s = .found 0 5 ∧ ws ≠ [] ∧ ∀ w ∈ ws, endsSpan w = false)
      ∧ ∃ s : State, s.Valid ∧ startIndex s = some 0 ∧ detect s = .noEnd :=
  ⟨⟨[0x2023, 0x2021, 0x2300, 0x3000], hold 16 0 frameB, by decide, by decide, by decide, none_of_all (by decide)⟩,
    ⟨hold 16 0 partialFrame, by decide⟩⟩

theorem witness_ConsumedWindowHasNoStart :
    (∃ (s : State) (ws : List CmdWord), s.Valid ∧ detect s = .found 2 8 ∧ ws ≠ []
        ∧ (∀ w ∈ ws, appendsStart w = false) ∧ ∀ w ∈ ws, emptiesWindow w = false)
      ∧ ∃ s : State, s.Valid ∧ detect s = .found 0 1 :=
  ⟨⟨hold 16 0 junkFrame, [0x2300, 0x2041, 0x2400], by decide, by decide, by decide, none_of_all (by decide),
      none_of_all (by decide)⟩, ⟨hold 2 0 [sof, eof], by decide⟩⟩

/-- V-FB-17: the `#` at index 3 is data. -/
theorem witness_InnerStartMarkerIsData :
    detect (hold 16 0 (bytes ['#', 'B', '0', '#', 'B', '0', '6', '6', '!'])) = .found 0 8
      ∧ (hold 16 0 (bytes ['#', 'B', '0', '#', 'B', '0', '6', '6', '!'])).mem.read 3 = some sof := by decide

/-- A next state for one append to each state below, and the outcome of detection before it. -/
theorem witness_OutcomeAfterOneAppend :
    [hold 1 0 [0x23], hold 1 0 [], hold 16 0 noStart, hold 16 0 partialFrame, hold 16 0 frameB].all
        (fun s => decide s.Valid && (nextOf (exec (.fbApp 0x21) s)).isSome) = true
      ∧ (hold 1 0 [0x23]).len.toNat = (hold 1 0 [0x23]).config.capacity
      ∧ detect (hold 1 0 []) = .empty ∧ detect (hold 16 0 noStart) = .noStart
      ∧ detect (hold 16 0 partialFrame) = .noEnd ∧ startIndex (hold 16 0 partialFrame) = some 0
      ∧ detect (hold 16 0 frameB) = .found 0 5 := by decide

theorem witness_EarlyDetectionLosesTheFrame :
    (hold 16 0 partialFrame).Valid ∧ detect (hold 16 0 partialFrame) = .noEnd ∧ sof ∉ bytes ['8', '3', '!'] := by decide

theorem witness_FullWindowStaysFull :
    (hold 16 0 digits16).Valid ∧ (hold 16 0 digits16).len.toNat = (hold 16 0 digits16).config.capacity
      ∧ ∀ w ∈ [0x2058#16, 0x3000#16, 0x1142#16], mayLowerLen w = false :=
  ⟨by decide, by decide, none_of_all (by decide)⟩

/-- V-FB-19c. -/
theorem witness_WedgedWindowNeedsReset :
    (hold 16 0 digits16).Valid ∧ Wedged (hold 16 0 digits16)
      ∧ ∀ w ∈ [0x2300#16, 0x2400#16, 0x2023#16], emptiesWindow w = false := by
  have hv : (hold 16 0 digits16).Valid := by decide
  refine ⟨hv, ⟨by decide, fun i h => ?_⟩, none_of_all (by decide)⟩
  exact startIndex_eq_none.1 (by decide) i (hv.lt_of_read h) h

theorem witness_NoHiddenState :
    (∃ s s' : State, s.Valid ∧ s'.Valid ∧ s.config = s'.config ∧ s.port = s'.port ∧ s.rsp = s'.rsp
        ∧ s.view = s'.view)
      ∧ ∃ (c : Config) (v : ListView), configWellFormed c = true ∧ v.window.length = c.capacity :=
  ⟨⟨hold 16 1 frameB, hold 16 1 frameB, by decide⟩, ⟨{ capacity := 1 }, { acc := 0, window := [0x23] }, by decide⟩⟩

theorem witness_ListViewIsTheSameMachine : (hold 1 0 [0x23]).Valid ∧ (hold 16 0xFF junkFrame).Valid := by decide

/-- The words of `CKSUM` of two bytes with an append, a `NOP` and a reserved word between them. -/
theorem witness_CksumAnswersChecksum :
    (hold 16 9 []).Valid
      ∧ [0x0000#16, 0x1000#16, 0x2023#16, 0x114C#16, 0x3000#16, 0x1131#16, 0x2300#16].filter writesAcc
        = (cksumAdds (bytes ['L', '1'])).map encode := by decide

theorem witness_FbPutAppendsInOrder : (hold 1 0 []).Valid ∧ (hold 16 0 digits15).Valid := by decide

/-- Clauses on `k`: inside the window at its last cell, and at the first index past it and at 255. -/
theorem witness_FbGetReadsTheSpan :
    (hold 16 0 junkFrame).Valid ∧ detect (hold 16 0 junkFrame) = .found 2 8
      ∧ 2 + 9 < (hold 16 0 junkFrame).len.toNat ∧ (hold 16 0 junkFrame).len.toNat ≤ 2 + 10
      ∧ (hold 16 0 junkFrame).len.toNat ≤ 2 + 253 ∧ 2 + 253 ≤ 255 := by decide

/-- All cells of the range held, up to the last; the first index past the window and 255 in the range; no cell held. -/
theorem witness_SumOfWindowCells :
    (hold 16 0 frameB).Valid ∧ (5 ≤ 5 ∧ 5 < (hold 16 0 frameB).len.toNat) ∧ (0 ≤ 5 ∧ 5 < (hold 16 0 frameB).len.toNat)
      ∧ (0 ≤ 6 ∧ (hold 16 0 frameB).len.toNat ≤ 6) ∧ (255 ≤ 255 ∧ (hold 16 0 frameB).len.toNat ≤ 255)
      ∧ (hold 1 0 []).Valid ∧ (0 ≤ 0 ∧ (hold 1 0 []).len.toNat ≤ 0) := by decide

/-- `#B066!` in a window that it just fills. -/
theorem witness_WireFrameIsDetectedAndRight :
    (hold 6 0 []).Valid ∧ (hold 6 0 []).len = 0 ∧ bytes ['B'] ≠ [] ∧ eof ∉ bytes ['B']
      ∧ (bytes ['B']).length + 5 ≤ (hold 6 0 []).config.capacity := by decide

theorem witness_ClearingKeepsTheBytesBehind :
    ∃ s t : State, s.Valid ∧ detect s = .found 2 8 ∧ exec .fbCon s = .next t :=
  ⟨hold 16 0 junkFrame,
    { hold 16 0 (bytes ['x', 'y']) with rsp := some { status := .success, d2 := 7, d1 := 8, d0 := 2 } }, by decide,
    by decide, eq_next_of_nextOf (by decide)⟩

end Sys2Proof.Tests
end

/-!
The two views of the state (O47): the meanings over `(ACC, LEN, MEM)` and the spec's `step` over `(ACC, list)` are the
same machine (`10_state.md` R13). In a state of the block a read of the window is a look into the list
(`State.Valid.read_eq`), so the scans, and with them detection, agree; the commands then agree one by one.
-/

namespace Sys2Proof.Machine

/-- The outcome is a next state with the pair `r.1` as its view and the answer `r.2` on its response port. -/
def Shows (o : Host.Outcome State Fault Refusal) (r : ListView × Response) : Prop :=
  ∃ t, o = .next t ∧ t.view = r.1 ∧ t.rsp = some r.2

theorem Shows.of_next {o : Host.Outcome State Fault Refusal} {r : ListView × Response} {t : State}
    (h : Shows o r) (ht : o = .next t) : t.view = r.1 ∧ t.rsp = some r.2 := by
  obtain ⟨u, hu, hview, hrsp⟩ := h
  cases hu.symm.trans ht
  exact ⟨hview, hrsp⟩

/-! ### The view of a changed state -/

@[simp] theorem State.view_acc (s : State) : s.view.acc = s.acc := rfl

@[simp] theorem State.view_window (s : State) : s.view.window = s.window := rfl

theorem State.Valid.view_appendCell {s : State} (hv : s.Valid) (b : Byte) :
    (s.appendCell b).view = { s.view with window := s.window ++ [b] } := by
  simp [State.view, hv.appendCell_window b]

theorem State.Valid.view_lowerLen {s : State} (hv : s.Valid) {n : Nat} (hn : n ≤ s.len.toNat) :
    (s.lowerLen n).view = { s.view with window := s.window.take n } := by
  simp [State.view, hv.lowerLen_window hn]

/-! ### The scans and detection -/

/-- The scan over cells finds what the search over the list finds, when the cells read as the list's elements. -/
theorem scanFrom_eq_firstInList {m : Memory} {l : List Byte} (hr : ∀ j, m.read j = l[j]?) (v : Byte) (i n : Nat)
    (hn : n = l.length - i) : scanFrom m v i n = firstInList l v i := by
  induction n generalizing i with
  | zero =>
    have hdrop : l.drop i = [] := List.drop_eq_nil_of_le (by omega)
    simp [scanFrom, firstInList, hdrop]
  | succ n ih =>
    have hi : i < l.length := by omega
    have hnext := ih (i + 1) (by omega)
    simp only [firstInList] at hnext
    simp only [scanFrom, firstInList, hr, List.getElem?_eq_getElem hi, List.drop_eq_getElem_cons hi,
      List.findIdx?_cons, hnext, beq_iff_eq, Option.some.injEq]
    split
    · rfl
    · simp only [Option.map_map]
      congr 1
      funext k
      simp only [Function.comp_apply]
      omega

theorem State.Valid.startIndex_eq {s : State} (hv : s.Valid) : startIndex s = firstInList s.window sof 0 :=
  scanFrom_eq_firstInList hv.read_eq sof 0 _ (by rw [hv.window_length])

theorem State.Valid.endIndex_eq {s : State} (hv : s.Valid) (a : Nat) :
    endIndex s a = firstInList s.window eof (a + 1) :=
  scanFrom_eq_firstInList hv.read_eq eof (a + 1) _ (by rw [hv.window_length])

/-- R71 over cells and R71 over the list. -/
theorem State.Valid.detectList_window {s : State} (hv : s.Valid) : detectList s.window = detect s := by
  have hnil : s.window = [] ↔ s.len.toNat = 0 := by rw [← List.length_eq_zero_iff, hv.window_length]
  by_cases hlen : s.len.toNat = 0
  · simp [detectList, detect_of_len_zero hlen, hnil.2 hlen]
  · have hstart := hv.startIndex_eq
    have hend := hv.endIndex_eq
    cases hs : startIndex s with
    | none =>
      have hd := detect_of_startIndex_none (Nat.pos_of_ne_zero hlen) hs
      simp [detectList, hd, hnil, hlen, ← hstart, hs]
    | some a =>
      cases he : endIndex s a with
      | none =>
        have hd := detect_of_endIndex_none hs he
        simp [detectList, hd, hnil, hlen, ← hstart, hs, ← hend, he]
      | some e =>
        have hd := detect_of_endIndex_some hs he
        simp [detectList, hd, hnil, hlen, ← hstart, hs, ← hend, he]

/-! ### The commands -/

/-- `FB.DET` and `FB.CON`: they agree when the windows they leave after a complete frame do. -/
theorem answerDetection_shows {s : State} (hv : s.Valid) {f : Nat → State → State} {g : Nat → List Byte}
    (hfg : ∀ a e, detect s = .found a e → (f a s).view = { s.view with window := g a }) :
    Shows (answerDetection f s) (detectAnswer s.view g) := by
  unfold detectAnswer
  rw [State.view_window, hv.detectList_window]
  cases hd : detect s with
  | empty => exact ⟨_, answerDetection_empty f hd, rfl, rfl⟩
  | noStart => exact ⟨_, answerDetection_noStart f hd, rfl, rfl⟩
  | noEnd => exact ⟨_, answerDetection_noEnd f hd, rfl, rfl⟩
  | found a e => exact ⟨_, answerDetection_found f hd, hfg a e hd, rfl⟩

theorem execFbApp_shows {s : State} (hv : s.Valid) (b : Byte) :
    Shows (execFbApp b s) (s.view.exec s.config.capacity (.fbApp b)) := by
  simp only [ListView.exec, State.view_window, hv.window_length]
  split
  · next hfull => exact ⟨_, execFbApp_full b hfull, rfl, rfl⟩
  · next hroom =>
    exact ⟨_, execFbApp_room b (lt_of_le_of_ne hv.len_le hroom), hv.view_appendCell b, rfl⟩

theorem execFbRdb_shows {s : State} (hv : s.Valid) (i : Byte) :
    Shows (execFbRdb i s) (s.view.exec s.config.capacity (.fbRdb i)) := by
  simp only [ListView.exec, State.view_window, ← hv.read_eq]
  cases hr : s.mem.read i.toNat with
  | none => exact ⟨_, execFbRdb_refused i ((hv.read_none_iff _).1 hr), rfl, rfl⟩
  | some b => exact ⟨_, execFbRdb_held i (hv.lt_of_read hr) hr, rfl, rfl⟩

theorem exec_shows {s : State} (hv : s.Valid) (i : Instr) : Shows (exec i s) (s.view.exec s.config.capacity i) := by
  cases i with
  | nop => exact ⟨_, rfl, rfl, rfl⟩
  | ckClr => exact ⟨_, rfl, rfl, rfl⟩
  | ckAdd b => exact ⟨_, rfl, by simp [ListView.exec, State.view, State.window, addMod256_eq_add, operandData], rfl⟩
  | ckRd => exact ⟨_, rfl, rfl, rfl⟩
  | ckRdd => exact ⟨_, rfl, rfl, rfl⟩
  | fbApp b => exact execFbApp_shows hv b
  | fbLen => exact ⟨_, rfl, rfl, by simp [ListView.exec, hv.window_length, answerByte]⟩
  | fbRdb i => exact execFbRdb_shows hv i
  | fbDet => exact answerDetection_shows hv (f := fun _ t => t) (g := fun _ => s.window) fun _ _ _ => rfl
  | fbCon =>
    refine answerDetection_shows hv (f := fun a t => t.lowerLen a) (g := s.window.take) fun a e hd => ?_
    obtain ⟨hae, he, -⟩ := found_bounds hd
    exact hv.view_lowerLen (hae.trans he).le
  | fbRst => exact ⟨_, rfl, hv.view_lowerLen (Nat.zero_le _), rfl⟩

theorem executeWord_shows {s : State} (hv : s.Valid) (w : CmdWord) :
    Shows (executeWord w s) (s.view.step s.config.capacity w) := by
  unfold ListView.step
  cases hd : decode w with
  | none => exact ⟨_, executeWord_of_reserved hd s, rfl, rfl⟩
  | some i =>
    rw [executeWord_of_decode hd]
    exact exec_shows hv i

/-- Settles O47: every word has a next state that keeps the invariant, and it shows what the list machine gives. -/
theorem listViewIsTheSameMachine : Obligations.ListViewIsTheSameMachine := by
  intro w s hv
  obtain ⟨t, ht, heffect⟩ := executeWord_cases hv w
  obtain ⟨hconfig, hport⟩ := heffect.config_port
  obtain ⟨hview, hrsp⟩ := (executeWord_shows hv w).of_next ht
  exact ⟨t, ht, heffect.valid hv, hconfig, hport, hview, hrsp⟩

end Sys2Proof.Machine

/-!
The state and its invariant (O10, O12 to O14, O46): every step leaves a state of the block (`10_state.md` R17),
reset leaves the values of R26, and a state of the block is its configuration, its ports and the pair of R13.
-/

namespace Sys2Proof.Machine

/-! ### Where the step is not defined -/

theorem onState_notAConfiguration {s : State} (h : configWellFormed s.config = false)
    (k : State → Host.Outcome State Fault Refusal) : onState s k = .refused .notAConfiguration := by
  simp [onState, h]

theorem onState_notAState {s : State} (hc : configWellFormed s.config = true) (hv : ¬ s.Valid)
    (k : State → Host.Outcome State Fault Refusal) : onState s k = .refused .notAState := by
  simp only [onState, hc, if_true, if_neg hv]

theorem onReset_notAConfiguration {s : State} (h : configWellFormed s.config = false) :
    onReset s = .refused .notAConfiguration := by
  simp [onReset, h]

theorem portStep_rst {p : PortSample} (h : p.rst = true) (s : State) : portStep p s = onReset s := by
  simp [portStep, h]

theorem portStep_noRst {p : PortSample} (h : p.rst = false) (s : State) :
    portStep p s = onState s (fun t => if accepted p then acceptCommand p t else .next t.idle) := by
  simp [portStep, h]

theorem step_notAConfiguration {s : State} (h : configWellFormed s.config = false) :
    step s = .refused .notAConfiguration := by
  cases hp : s.port with
  | nil => rw [step_nil hp, quietStep, onState_notAConfiguration h]
  | cons p rest =>
    rw [step_cons hp]
    cases hr : p.rst with
    | true => exact (portStep_rst hr _).trans (onReset_notAConfiguration h)
    | false => exact (portStep_noRst hr _).trans (onState_notAConfiguration (s := { s with port := rest }) h _)

theorem step_notAState {s : State} (hc : configWellFormed s.config = true) (hv : ¬ s.Valid)
    (hnr : ∀ p, s.port.head? = some p → p.rst = false) : step s = .refused .notAState := by
  cases hp : s.port with
  | nil => rw [step_nil hp, quietStep, onState_notAState hc hv]
  | cons p rest =>
    have hr : p.rst = false := hnr p (by rw [hp]; rfl)
    rw [step_cons hp, portStep_noRst hr]
    exact onState_notAState (s := { s with port := rest }) hc (fun h => hv (h.of_window rfl rfl rfl)) _

/-! ### What a step leaves -/

theorem step_rst {s t : State} {p : PortSample} (hp : s.port.head? = some p) (hr : p.rst = true)
    (h : step s = .next t) : ∃ q, t = ({ s with port := q } : State).afterReset := by
  obtain ⟨q, hq⟩ := List.head?_eq_some_iff.1 hp
  rw [step_cons hq, portStep_rst hr] at h
  exact ⟨q, (onReset_next h).2⟩

/-- The step lemma of R17: the three things a step can do, by `step_cases`, each leave a state of the block and the
configuration. -/
theorem step_valid_config {s t : State} (h : step s = .next t) : t.Valid ∧ t.config = s.config := by
  obtain ⟨p, q, -, -, hc, rfl⟩ | ⟨p, q, hv, -, -, hw⟩ | ⟨hv, q, rfl⟩ := step_cases h
  · exact ⟨State.afterReset_valid hc, rfl⟩
  · obtain ⟨u, hu, heffect⟩ := executeWord_cases (hv.withPort q) p.cmd
    cases hu.symm.trans hw
    exact ⟨heffect.valid (hv.withPort q), heffect.config_port.1⟩
  · exact ⟨hv.of_window rfl rfl rfl, rfl⟩

/-! ### The state is the pair of R13 -/

/-- The window fixes `LEN`, because it has `LEN` bytes. -/
theorem State.Valid.len_eq_of_window {s s' : State} (hv : s.Valid) (hv' : s'.Valid)
    (hw : s.window = s'.window) : s.len = s'.len :=
  BitVec.eq_of_toNat_eq (by rw [← hv.window_length, ← hv'.window_length, hw])

/-- The window fixes the cells, because a read is a look into it. -/
theorem State.Valid.mem_eq_of_window {s s' : State} (hv : s.Valid) (hv' : s'.Valid)
    (hw : s.window = s'.window) : s.mem = s'.mem :=
  Memory.ext_of_read hv.indices (by rw [hv.len_eq_of_window hv' hw, hv'.indices])
    fun i => by rw [hv.read_eq, hv'.read_eq, hw]

/-- The state that has a given pair of R13 as its view, with nothing on its ports. -/
def ListView.toState (c : Config) (v : ListView) : State where
  config := c
  acc := v.acc
  len := countByte v.window.length
  mem := (List.range v.window.length).zip v.window
  port := []
  rsp := none

theorem ListView.toState_view (c : Config) (v : ListView) : (v.toState c).view = v := by
  simp [ListView.toState, State.view, State.window, List.map_snd_zip]

theorem ListView.toState_valid {c : Config} {v : ListView} (hc : configWellFormed c = true)
    (hl : v.window.length ≤ c.capacity) : (v.toState c).Valid := by
  have hcap : c.capacity ≤ 255 := by
    simp only [configWellFormed, Bool.and_eq_true, decide_eq_true_eq] at hc
    exact hc.2
  have hlen : (v.toState c).len.toNat = v.window.length := countByte_toNat_of_lt (by omega)
  refine ⟨hc, by rw [hlen]; exact hl, ?_⟩
  rw [hlen]
  exact List.map_fst_zip (by simp)

/-! ### The obligations -/

/-- Settles O13: the step lemma of R17, and a state of the block lists its cells in rising order. -/
theorem stepKeepsStateInvariant : Obligations.StepKeepsStateInvariant := by
  intro s t h
  obtain ⟨hv, hconfig⟩ := step_valid_config h
  exact ⟨hv, hv.mem_wf, hconfig⟩

/-- Settles O46: the window fixes `LEN` and the cells, and every pair is the view of `ListView.toState`. -/
theorem noHiddenState : Obligations.NoHiddenState := by
  refine ⟨fun s s' hv hv' hconfig hport hrsp hview => ?_, fun c v hc hl => ?_⟩
  · have hacc : s.acc = s'.acc := congrArg ListView.acc hview
    have hwindow : s.window = s'.window := congrArg ListView.window hview
    have hlen := hv.len_eq_of_window hv' hwindow
    have hmem := hv.mem_eq_of_window hv' hwindow
    cases s
    cases s'
    rw [State.mk.injEq]
    exact ⟨hconfig, hacc, hlen, hmem, hport, hrsp⟩
  · exact ⟨v.toState c, ListView.toState_valid hc hl, rfl, v.toState_view c⟩

/-- Settles O10: a reset sample leaves `State.afterReset`. -/
theorem resetValues : Obligations.ResetValues := by
  refine ⟨⟨rfl, rfl, Memory.read_nil⟩, fun s t _ hp h => ?_⟩
  obtain ⟨q, rfl⟩ := step_rst hp rfl h
  exact ⟨rfl, rfl, Memory.read_nil⟩

/-- Settles O12: the reference configuration is one of R5, and no cell is held where `LEN` is 0. -/
theorem resetStateIsValid : Obligations.ResetStateIsValid :=
  ⟨by decide, fun _ => State.afterReset_valid⟩

/-- Settles O14: a refused configuration is refused also by a reset, a state that breaks R17 only by the rest. -/
theorem stepRefusesWhatIsNoState : Obligations.StepRefusesWhatIsNoState :=
  ⟨fun _ => step_notAConfiguration, fun _ => step_notAState⟩

end Sys2Proof.Machine

/-!
Order of execution and side effects (O16, O36, O38): as many steps as words are presented are the sequence `runWords`
(`20_memory.md` R37), because no command reads the port; a held cell is never overwritten (R16, R29); and which
commands may be repeated (R35).
-/

namespace Sys2Proof.Machine

/-! ### What the store and the load can do -/

/-- `FB.APP` finds room and appends, or finds none and changes nothing. -/
theorem execFbApp_next {s t : State} {b : Byte} (hv : s.Valid) (h : execFbApp b s = .next t) :
    (s.len.toNat = s.config.capacity ∧ t = { s with rsp := some (answerError .bufferFull) })
      ∨ (s.len.toNat < s.config.capacity ∧ t = { s.appendCell b with rsp := some answerDone }) := by
  obtain hroom | hfull := hv.len_le.lt_or_eq
  · cases (execFbApp_room b hroom).symm.trans h
    exact .inr ⟨hroom, rfl⟩
  · cases (execFbApp_full b hfull).symm.trans h
    exact .inl ⟨hfull, rfl⟩

/-- An answer of `FB.RDB` is a refusal at or above `LEN` or the byte of a held cell, in every state. -/
theorem execFbRdb_next {s t : State} {i : Byte} (h : execFbRdb i s = .next t) :
    (s.len.toNat ≤ i.toNat ∧ t = { s with rsp := some (answerError .indexOutOfRange) })
      ∨ ∃ b, i.toNat < s.len.toNat ∧ s.mem.read i.toNat = some b
          ∧ t = { s with rsp := some (answerByte b) } := by
  obtain hi | hi := Nat.lt_or_ge i.toNat s.len.toNat
  · cases hr : s.mem.read i.toNat with
    | none => cases (execFbRdb_noValue i hi hr).symm.trans h
    | some b =>
      cases (execFbRdb_held i hi hr).symm.trans h
      exact .inr ⟨b, hi, rfl, rfl⟩
  · cases (execFbRdb_refused i hi).symm.trans h
    exact .inl ⟨hi, rfl⟩

/-! ### No command reads the ports -/

theorem detect_withPort (s : State) (q : List PortSample) : detect { s with port := q } = detect s :=
  detect_congr rfl fun _ _ => rfl

theorem detect_withRsp (s : State) (r : Option Response) : detect { s with rsp := r } = detect s :=
  detect_congr rfl fun _ _ => rfl

theorem answerDetection_withPort {f : Nat → State → State} {q : List PortSample}
    (hf : ∀ a s, f a { s with port := q } = { f a s with port := q }) {s t : State}
    (h : answerDetection f s = .next t) : answerDetection f { s with port := q } = .next { t with port := q } := by
  have hd := detect_withPort s q
  rcases detect_cases s with ⟨hs, -⟩ | ⟨hs, -⟩ | ⟨a, hs, -⟩ | ⟨a, e, hs, -⟩ <;> rw [hs] at hd
  · cases (answerDetection_empty f hs).symm.trans h
    exact answerDetection_empty f hd
  · cases (answerDetection_noStart f hs).symm.trans h
    exact answerDetection_noStart f hd
  · cases (answerDetection_noEnd f hs).symm.trans h
    exact answerDetection_noEnd f hd
  · cases (answerDetection_found f hs).symm.trans h
    rw [answerDetection_found f hd, hf]

theorem exec_withPort {i : Instr} {s t : State} (hv : s.Valid) (h : exec i s = .next t) (q : List PortSample) :
    exec i { s with port := q } = .next { t with port := q } := by
  cases i with
  | nop | ckClr | ckAdd | ckRd | ckRdd | fbLen | fbRst => cases h; rfl
  | fbApp b =>
    obtain ⟨hfull, rfl⟩ | ⟨hroom, rfl⟩ := execFbApp_next hv h
    · exact execFbApp_full (s := { s with port := q }) b hfull
    · exact execFbApp_room (s := { s with port := q }) b hroom
  | fbRdb k =>
    obtain ⟨hk, rfl⟩ | ⟨b, hk, hr, rfl⟩ := execFbRdb_next h
    · exact execFbRdb_refused (s := { s with port := q }) k hk
    · exact execFbRdb_held (s := { s with port := q }) k hk hr
  | fbDet => exact answerDetection_withPort (f := fun _ t => t) (fun _ _ => rfl) h
  | fbCon => exact answerDetection_withPort (f := fun a t => t.lowerLen a) (fun _ _ => rfl) h

theorem executeWord_withPort {w : CmdWord} {s t : State} (hv : s.Valid) (h : executeWord w s = .next t)
    (q : List PortSample) : executeWord w { s with port := q } = .next { t with port := q } := by
  cases hd : decode w with
  | none =>
    cases (executeWord_of_reserved hd s).symm.trans h
    exact executeWord_of_reserved hd _
  | some i =>
    rw [executeWord_of_decode hd] at h ⊢
    exact exec_withPort hv h q

/-! ### Sequences of words and runs of the port -/

theorem WordEffect.rsp {w : CmdWord} {s t : State} (h : WordEffect w s t) : ∃ r, t.rsp = some r := by
  cases h <;> exact ⟨_, rfl⟩

/-- Every word answers once, and the port shows the latest answer (before any, what it showed before). -/
theorem runWords_answers (ws : List CmdWord) {s : State} (hv : s.Valid) :
    ∃ t rs, runWords ws s = .next (t, rs) ∧ rs.length = ws.length ∧ rs.getLast?.or s.rsp = t.rsp := by
  induction ws generalizing s with
  | nil => exact ⟨s, [], rfl, rfl, rfl⟩
  | cons w ws ih =>
    obtain ⟨t, ht, heffect⟩ := executeWord_cases hv w
    obtain ⟨r, hr⟩ := heffect.rsp
    obtain ⟨u, rs, hu, hlength, hlast⟩ := ih (heffect.valid hv)
    refine ⟨u, r :: rs, by simp [runWords_cons ht, hu, hr], by simp [hlength], ?_⟩
    rw [← hlast, hr, List.getLast?_cons]
    cases rs.getLast? <;> rfl

theorem runWords_cons_next {w : CmdWord} {ws : List CmdWord} {s t u : State} {rs : List Response}
    (h : runWords (w :: ws) s = .next (u, rs)) (ht : executeWord w s = .next t) :
    ∃ rs', runWords ws t = .next (u, rs') := by
  rw [runWords_cons ht] at h
  cases hr : runWords ws t with
  | next p =>
    rw [hr] at h
    cases h
    exact ⟨p.2, rfl⟩
  | fault f => rw [hr] at h; cases h
  | refused r => rw [hr] at h; cases h

theorem step_presented {s : State} {w : CmdWord} {q : List PortSample} (hv : s.Valid)
    (hp : s.port = presented w :: q) : step s = executeWord w { s with port := q } := by
  rw [step_cons hp, portStep_noRst rfl]
  exact onState_valid (hv.withPort q) _

theorem core_run_succ {s t : State} (h : step s = .next t) (k : Nat) :
    Host.Core.run Sys2Proof.core (k + 1) s = Host.Core.run Sys2Proof.core k t := by
  have hcore : Sys2Proof.core.step s = .next t := h
  simp only [Host.Core.run, hcore]

/-- The run of a port that presents words is the run of the words. -/
theorem core_run_presented (ws : List CmdWord) (rest : List PortSample) {s t : State} {rs : List Response}
    (hv : s.Valid) (hp : s.port = ws.map presented ++ rest)
    (h : runWords ws { s with port := rest } = .next (t, rs)) :
    Host.Core.run Sys2Proof.core ws.length s = .next t := by
  induction ws generalizing s rs with
  | nil =>
    cases h
    have hs : s = { s with port := rest } := by rw [show rest = s.port from hp.symm]
    exact congrArg Host.Outcome.next hs
  | cons w ws ih =>
    have hv' := hv.withPort rest
    obtain ⟨u, hu, heffect⟩ := executeWord_cases hv' w
    have hport : u.port = rest := heffect.config_port.2
    obtain ⟨rs', hrest⟩ := runWords_cons_next h hu
    have hstep : step s = .next { u with port := ws.map presented ++ rest } :=
      (step_presented hv hp).trans (executeWord_withPort hv' hu _)
    rw [List.length_cons, core_run_succ hstep]
    refine ih ((heffect.valid hv').withPort _) rfl (rs := rs') ?_
    rw [← hrest, ← hport]

/-- Settles O16: the steps run the words (`core_run_presented`), and every word answers (`runWords_answers`). -/
theorem portOrderIsExecutionOrder : Obligations.PortOrderIsExecutionOrder := by
  intro ws rest s hv hp
  obtain ⟨t, rs, hrun, hlength, hlast⟩ := runWords_answers ws (hv.withPort rest)
  refine ⟨t, rs, hrun, hlength, ?_, core_run_presented ws rest hv hp hrun⟩
  rw [← hlast]
  cases ws with
  | nil => simp [List.length_eq_zero_iff.1 hlength]
  | cons w ws =>
    obtain ⟨r, hr⟩ : ∃ r, rs.getLast? = some r :=
      ⟨_, List.getLast?_eq_some_getLast (List.ne_nil_of_length_eq_add_one hlength)⟩
    simp [hr]

/-! ### Held bytes -/

/-- A byte in the window after a word stood there before, or the word is the successful `FB.APP` that stored it. -/
theorem WordEffect.read_cases {w : CmdWord} {s t : State} (h : WordEffect w s t) {i : Nat} {b : Byte}
    (hr : t.mem.read i = some b) :
    s.mem.read i = some b
      ∨ (i = s.len.toNat ∧ s.len.toNat < s.config.capacity ∧ decode w = some (.fbApp b)
          ∧ t.rsp = some answerDone) := by
  cases h with
  | same | clear | add => exact .inl hr
  | emptied | dropped => cases hr
  | append c hd hroom =>
    rw [State.appendCell_mem, Memory.read_write] at hr
    split at hr
    · next hi =>
      cases hr
      exact .inr ⟨hi, hroom, hd, rfl⟩
    · exact .inl hr
  | trimmed a e r hd hf =>
    rw [State.lowerLen_mem, Memory.read_eraseFrom] at hr
    split at hr
    · exact .inl hr
    · cases hr

/-- Settles O36: a new byte stands at `LEN`, where no byte is held (`WordEffect.read_cases`). -/
theorem heldBytesAreNeverOverwritten : Obligations.HeldBytesAreNeverOverwritten := by
  intro w s t hv h
  obtain ⟨u, hu, heffect⟩ := executeWord_cases hv w
  cases hu.symm.trans h
  refine ⟨fun i a b hs ht => ?_, fun i b hs ht => ?_⟩
  · obtain hheld | ⟨hi, -⟩ := heffect.read_cases ht
    · exact Option.some.inj (hs.symm.trans hheld)
    · exact absurd (hv.lt_of_read hs) (by omega)
  · obtain hheld | hnew := heffect.read_cases ht
    · cases hs.symm.trans hheld
    · exact hnew

/-! ### Commands that may be repeated -/

theorem execFbRdb_repeats {i : Byte} {s t : State} (h : execFbRdb i s = .next t) :
    t = { s with rsp := t.rsp } ∧ execFbRdb i t = .next t := by
  obtain ⟨hi, rfl⟩ | ⟨b, hi, hr, rfl⟩ := execFbRdb_next h
  · exact ⟨rfl, execFbRdb_refused _ hi⟩
  · exact ⟨rfl, execFbRdb_held _ hi hr⟩

/-- A detection that does not drop the window changes only the response, where a span is left alone. -/
theorem execFbDet_repeats {s : State} (h : detect s ≠ .noEnd) :
    ∃ t, exec .fbDet s = .next t ∧ t = { s with rsp := t.rsp } ∧ exec .fbDet t = .next t := by
  simp only [exec_fbDet]
  rcases detect_cases s with ⟨hs, -⟩ | ⟨hs, -⟩ | ⟨a, hs, -⟩ | ⟨a, e, hs, -⟩
  · exact ⟨_, answerDetection_empty _ hs, rfl, answerDetection_empty _ ((detect_withRsp s _).trans hs)⟩
  · exact ⟨_, answerDetection_noStart _ hs, rfl, answerDetection_noStart _ ((detect_withRsp s _).trans hs)⟩
  · exact absurd hs h
  · exact ⟨_, answerDetection_found _ hs, rfl, answerDetection_found _ ((detect_withRsp s _).trans hs)⟩

theorem execFbDet_noEnd_then_empty {s : State} (h : detect s = .noEnd) :
    ∃ t, exec .fbDet s = .next t ∧ t.len = 0
      ∧ exec .fbDet t = .next { t with rsp := some (answerError .emptyBuffer) } := by
  simp only [exec_fbDet]
  exact ⟨_, answerDetection_noEnd _ h, rfl, answerDetection_empty _ (detect_of_len_zero rfl)⟩

theorem execFbRst_eq (s : State) : execFbRst s = .next { s with len := 0, mem := [], rsp := some answerDone } := by
  simp [execFbRst, State.lowerLen]

theorem execFbRst_idempotent {s t : State} (h : execFbRst s = .next t) : execFbRst t = .next t := by
  cases (execFbRst_eq s).symm.trans h
  exact execFbRst_eq _

/-! ### Commands that may not -/

/-- A second `FB.APP` appends a second byte. -/
theorem fbApp_not_idempotent :
    ∃ s t : State, s.Valid ∧ exec (.fbApp 0) s = .next t ∧ exec (.fbApp 0) t ≠ .next t :=
  ⟨State.reset, { State.reset.appendCell 0 with rsp := some answerDone }, by decide, rfl,
    fun h => absurd (congrArg State.len (Host.Outcome.next.inj h)) (by decide)⟩

/-- The reset state with the shortest frame, `#!`, in the window. -/
def State.shortestFrame : State := { State.reset with len := 2, mem := [(0, sof), (1, eof)] }

/-- A second `FB.CON` finds the window that the first one emptied. -/
theorem fbCon_not_idempotent :
    ∃ s t : State, s.Valid ∧ exec .fbCon s = .next t ∧ exec .fbCon t ≠ .next t :=
  ⟨State.shortestFrame, { State.reset with rsp := some { status := .success, d2 := 2, d1 := 1, d0 := 0 } },
    by decide, rfl, fun h => absurd (congrArg State.rsp (Host.Outcome.next.inj h)) (by decide)⟩

/-- A second `CK.ADD 1` adds 1 again. -/
theorem ckAdd_not_idempotent :
    ∃ s t : State, s.Valid ∧ exec (.ckAdd 1) s = .next t ∧ exec (.ckAdd 1) t ≠ .next t :=
  ⟨State.reset, { State.reset with acc := 1, rsp := some answerDone }, by decide, rfl,
    fun h => absurd (congrArg State.acc (Host.Outcome.next.inj h)) (by decide)⟩

/-- Settles O38: the reads and the idempotent commands one by one, `FB.DET` by the outcome of detection, and a state
for each command that may not be repeated. -/
theorem readsHaveNoSideEffect : Obligations.ReadsHaveNoSideEffect := by
  refine ⟨fun i s t hi h => ?_, fun s => execFbDet_repeats, fun s => execFbDet_noEnd_then_empty,
    fun i s t hi h => ?_, fbApp_not_idempotent, fbCon_not_idempotent, ckAdd_not_idempotent⟩
  · obtain ⟨k, rfl⟩ | rfl | rfl | rfl := hi
    · exact execFbRdb_repeats h
    · cases h; exact ⟨rfl, rfl⟩
    · cases h; exact ⟨rfl, rfl⟩
    · cases h; exact ⟨rfl, rfl⟩
  · obtain rfl | rfl | rfl := hi
    · exact execFbRst_idempotent h
    · cases h; rfl
    · cases h; rfl

end Sys2Proof.Machine

/-!
Encoding of command words (O1 to O4): a word is its opcode and its low byte (`30_encoding.md` R41), so decoder and
encoder are compared field by field (R46); the rows of R44's table are the rows of the commands; the reserved words of
R47 are the words that are no command's.
-/

namespace Sys2Proof

/-! ### A word is its two bytes -/

@[simp] theorem cmdOpcode_append (op imm : Byte) : cmdOpcode (op ++ imm) = op := BitVec.extractLsb'_append_eq_left

@[simp] theorem cmdImm_append (op imm : Byte) : cmdImm (op ++ imm) = imm := BitVec.extractLsb'_append_eq_right

theorem append_of_fields {w : CmdWord} {op imm : Byte} (hop : cmdOpcode w = op) (himm : cmdImm w = imm) :
    op ++ imm = w := by
  rw [← hop, ← himm]
  exact BitVec.extractLsb'_append_extractLsb'

@[simp] theorem cmdOpcode_cmdWord (unit fn : BitVec 4) (imm : Byte) :
    cmdOpcode (cmdWord unit fn imm) = unit ++ fn := cmdOpcode_append _ _

@[simp] theorem cmdImm_cmdWord (unit fn : BitVec 4) (imm : Byte) : cmdImm (cmdWord unit fn imm) = imm :=
  cmdImm_append _ _

/-! ### Decoder and encoder -/

theorem decode_encode (i : Instr) : decode (encode i) = some i := by
  cases i <;> simp [encode, decode]

theorem of_ite_eq_some {α : Type} {p : Prop} [Decidable p] {a b : α} {o : Option α}
    (h : (if p then some a else o) = some b) : (p ∧ a = b) ∨ o = some b := by
  split at h
  · exact .inl ⟨‹p›, Option.some.inj h⟩
  · exact .inr h

/-- Three tests of R46 are of format I and eight of format N. Each fixes the opcode; the low byte is the operand that
the command carries or is fixed too. -/
theorem encode_of_decode {w : CmdWord} {i : Instr} (h : decode w = some i) : encode i = w := by
  unfold decode at h
  iterate 3
    obtain ⟨hop, rfl⟩ | h := of_ite_eq_some h
    · exact append_of_fields hop rfl
  iterate 8
    obtain ⟨⟨himm, hop⟩, rfl⟩ | h := of_ite_eq_some h
    · exact append_of_fields hop himm
  cases h

/-- Settles O1: `decode_encode` and `encode_of_decode` are the two directions. -/
theorem decodeAndEncodeAgree : Obligations.DecodeAndEncodeAgree := by
  intro i w
  constructor
  · exact encode_of_decode
  · rintro rfl
    exact decode_encode i

theorem encode_injective : Function.Injective encode := by
  intro i j h
  exact Option.some.inj ((decode_encode i).symm.trans ((decodeAndEncodeAgree j _).2 h.symm))

theorem decode_isSome_iff (w : CmdWord) : (decode w).isSome = true ↔ ∃ i, encode i = w := by
  simp only [Option.isSome_iff_exists, decodeAndEncodeAgree _ w]

/-- Settles O4: each word is the encoding of its command. -/
theorem sampleWordsDecode : Obligations.SampleWordsDecode :=
  ⟨decode_encode .nop, decode_encode .ckClr, decode_encode (.ckAdd 0x42#8), decode_encode .ckRd, decode_encode .ckRdd,
    decode_encode (.fbApp 0x23#8), decode_encode .fbLen, decode_encode (.fbRdb 0xFF#8), decode_encode .fbDet,
    decode_encode .fbCon, decode_encode .fbRst⟩

/-! ### The rows of the opcode table -/

/-- The mask of a format: all bits in format N, the opcode's in format I (R44). -/
def Format.mask : Format → CmdWord
  | .n => 0xFFFF
  | .i => 0xFF00

theorem and_mask_n (w : CmdWord) : w &&& Format.mask .n = w := BitVec.and_allOnes

theorem and_mask_i (w : CmdWord) : w &&& Format.mask .i = cmdOpcode w ++ 0#8 := by
  have h : (cmdOpcode w ++ cmdImm w) &&& (0xFF#8 ++ 0#8) = cmdOpcode w ++ 0#8 := by
    rw [BitVec.and_append, BitVec.and_zero]
    exact congrArg (· ++ 0#8) BitVec.and_allOnes
  rwa [append_of_fields rfl rfl] at h

/-- The format of a command: format I is that of a command with an operand (R42, R43). -/
def Instr.format (i : Instr) : Format :=
  match i.operand with
  | none => .n
  | some _ => .i

/-- The row of R44's table that a command's mnemonic names. -/
def Instr.row (i : Instr) : OpcodeRow :=
  { mnemonic := i.mnemonic, format := i.format, mask := i.format.mask, pattern := encode i &&& i.format.mask }

theorem Instr.row_mem (i : Instr) : i.row ∈ opcodeTable := by
  cases i with
  | nop | ckClr | ckRd | ckRdd | fbLen | fbDet | fbCon | fbRst => decide
  | ckAdd b | fbApp b | fbRdb b =>
    simp only [row, format, operand, mnemonic, and_mask_i, encode, cmdOpcode_cmdWord]
    decide

theorem Instr.row_matchesWord (i : Instr) (w : CmdWord) :
    i.row.matchesWord w = true ↔ w &&& i.format.mask = encode i &&& i.format.mask := beq_iff_eq

theorem Instr.operandOf_row_encode (i : Instr) : i.row.operandOf (encode i) = i.operand := by
  cases i <;> simp [OpcodeRow.operandOf, row, format, operand, encode]

theorem eq_row_of_mnemonic {r : OpcodeRow} (hr : r ∈ opcodeTable) {i : Instr} (h : r.mnemonic = i.mnemonic) :
    r = i.row := by
  have hunique : ∀ r ∈ opcodeTable, ∀ r' ∈ opcodeTable, r.mnemonic = r'.mnemonic → r = r' := by decide
  exact hunique r hr i.row i.row_mem h

/-- A word that matches a command's row and has its operand is the command's word. -/
theorem Instr.encode_of_row {i : Instr} {w : CmdWord} (hmatch : i.row.matchesWord w = true)
    (hoperand : i.row.operandOf w = i.operand) : encode i = w := by
  rw [row_matchesWord] at hmatch
  cases hf : i.format with
  | n => simpa only [hf, and_mask_n] using hmatch.symm
  | i =>
    simp only [hf, and_mask_i] at hmatch
    have hop : cmdOpcode w = cmdOpcode (encode i) := by simpa using congrArg cmdOpcode hmatch
    have himm : cmdImm w = cmdImm (encode i) := by
      have := hoperand.trans i.operandOf_row_encode.symm
      simpa [OpcodeRow.operandOf, row, hf] using this
    exact (append_of_fields rfl rfl).symm.trans (append_of_fields hop himm)

/-- What two rows both match fixes the bits that both masks test, and no two rows agree in those. -/
theorem opcodeTable_disjoint {r r' : OpcodeRow} (hr : r ∈ opcodeTable) (hr' : r' ∈ opcodeTable) {w : CmdWord}
    (h : r.matchesWord w = true) (h' : r'.matchesWord w = true) : r = r' := by
  have hdistinct : ∀ r ∈ opcodeTable, ∀ r' ∈ opcodeTable,
      r.pattern &&& r'.mask = r'.pattern &&& r.mask → r = r' := by decide
  refine hdistinct r hr r' hr' ?_
  rw [← beq_iff_eq.1 h, ← beq_iff_eq.1 h', BitVec.and_assoc, BitVec.and_assoc, BitVec.and_comm r.mask]

theorem decode_eq_some_iff_row (w : CmdWord) (i : Instr) : decode w = some i ↔
    ∃ r ∈ opcodeTable, r.matchesWord w = true ∧ r.mnemonic = i.mnemonic ∧ r.operandOf w = i.operand := by
  rw [decodeAndEncodeAgree]
  constructor
  · rintro rfl
    exact ⟨i.row, i.row_mem, (i.row_matchesWord _).2 rfl, rfl, i.operandOf_row_encode⟩
  · rintro ⟨r, hr, hmatch, hmnemonic, hoperand⟩
    obtain rfl := eq_row_of_mnemonic hr hmnemonic
    exact Instr.encode_of_row hmatch hoperand

/-! ### The number of commands -/

/-- All values of `n` bits. -/
def allValues (n : Nat) : List (BitVec n) := (List.finRange (2 ^ n)).map BitVec.ofFin

@[simp] theorem mem_allValues {n : Nat} (v : BitVec n) : v ∈ allValues n :=
  List.mem_map.2 ⟨v.toFin, List.mem_finRange _, rfl⟩

theorem allValues_nodup (n : Nat) : (allValues n).Nodup :=
  (List.nodup_finRange _).map fun _ _ => congrArg BitVec.toFin

@[simp] theorem allValues_length (n : Nat) : (allValues n).length = 2 ^ n := by simp [allValues]

/-- The commands of format N. -/
def plainCommands : List Instr := [.nop, .ckClr, .ckRd, .ckRdd, .fbLen, .fbDet, .fbCon, .fbRst]

/-- All commands with all operands. -/
def allCommands : List Instr :=
  plainCommands ++ (allValues 8).map .ckAdd ++ (allValues 8).map .fbApp ++ (allValues 8).map .fbRdb

theorem mem_allCommands (i : Instr) : i ∈ allCommands := by
  cases i <;> simp [allCommands, plainCommands]

theorem allCommands_nodup : allCommands.Nodup := by
  have hmap (mk : Byte → Instr) (hmk : Function.Injective mk) : ((allValues 8).map mk).Nodup :=
    (allValues_nodup 8).map hmk
  have hplain : plainCommands.Nodup := by decide
  have hadd := hmap .ckAdd fun _ _ => Instr.ckAdd.inj
  have happ := hmap .fbApp fun _ _ => Instr.fbApp.inj
  have hrdb := hmap .fbRdb fun _ _ => Instr.fbRdb.inj
  refine ((hplain.append hadd ?_).append happ ?_).append hrdb ?_ <;> simp [List.disjoint_right, plainCommands]

/-- The words of the commands. -/
def commandWords : List CmdWord := allCommands.map encode

theorem commandWords_nodup : commandWords.Nodup := allCommands_nodup.map encode_injective

theorem commandWords_length : commandWords.length = 776 := by simp [commandWords, allCommands, plainCommands]

theorem mem_commandWords (w : CmdWord) : w ∈ commandWords ↔ (decode w).isSome = true := by
  simp [commandWords, mem_allCommands, decode_isSome_iff]

/-- The words that are no command's. -/
def reservedWords : List CmdWord := (allValues 16).filter fun w => !(decode w).isSome

theorem reservedWords_nodup : reservedWords.Nodup := (allValues_nodup 16).filter _

theorem mem_reservedWords (w : CmdWord) : w ∈ reservedWords ↔ decode w = none := by
  simp [reservedWords]

theorem commandWords_append_reservedWords_perm : (commandWords ++ reservedWords).Perm (allValues 16) := by
  have hdisjoint : commandWords.Disjoint reservedWords := fun w hw hw' => by
    simp [mem_commandWords, (mem_reservedWords w).1 hw'] at hw
  refine (List.perm_ext_iff_of_nodup (commandWords_nodup.append reservedWords_nodup hdisjoint)
    (allValues_nodup 16)).2 fun w => ?_
  cases hd : decode w <;> simp [mem_commandWords, mem_reservedWords, hd]

theorem reservedWords_length : reservedWords.length = 64760 := by
  have hsum := commandWords_append_reservedWords_perm.length_eq
  rw [List.length_append, commandWords_length, allValues_length] at hsum
  omega

/-- Settles O2: the rows exclude each other, each command reads its own row, and the words are counted by listing the
commands. -/
theorem decoderFollowsOpcodeTable : Obligations.DecoderFollowsOpcodeTable :=
  ⟨fun _ hr _ hr' _ => opcodeTable_disjoint hr hr', decode_eq_some_iff_row,
    ⟨commandWords, commandWords_nodup, commandWords_length, mem_commandWords⟩,
    ⟨reservedWords, reservedWords_nodup, reservedWords_length, mem_reservedWords⟩⟩

/-! ### The reserved words -/

/-- No command's word is one of R47's reserved words, command by command. -/
theorem wordWellFormed_encode (i : Instr) : wordWellFormed (encode i) = true := by
  cases i with
  | nop => exact Laws.EncodesWellFormed.nop
  | ckClr => exact Laws.EncodesWellFormed.ckClr
  | ckAdd b => exact Laws.EncodesWellFormed.ckAdd b
  | ckRd => exact Laws.EncodesWellFormed.ckRd
  | ckRdd => exact Laws.EncodesWellFormed.ckRdd
  | fbApp b => exact Laws.EncodesWellFormed.fbApp b
  | fbLen => exact Laws.EncodesWellFormed.fbLen
  | fbRdb b => exact Laws.EncodesWellFormed.fbRdb b
  | fbDet => exact Laws.EncodesWellFormed.fbDet
  | fbCon => exact Laws.EncodesWellFormed.fbCon
  | fbRst => exact Laws.EncodesWellFormed.fbRst

/-- What R47 leaves over: the opcodes of format N with a zero low byte, and those of format I. -/
theorem opcode_of_not_reserved {w : CmdWord} (h : ¬ wordReserved w = true) :
    (w.toNat / 256 ∈ formatNOpcodes ∧ w.toNat % 256 = 0)
      ∨ w.toNat / 256 = 0x11 ∨ w.toNat / 256 = 0x20 ∨ w.toNat / 256 = 0x22 := by
  simp only [wordReserved, Bool.or_eq_true, Bool.and_eq_true, decide_eq_true_eq, not_or, not_and, ne_eq,
    not_not] at h
  simp only [wordUnit, wordFn, wordLow] at h
  obtain ⟨⟨⟨⟨hunit, h0⟩, h1⟩, h2⟩, hlow⟩ := h
  by_cases hn : w.toNat / 256 ∈ formatNOpcodes
  · exact .inl ⟨hn, hlow hn⟩
  · simp only [formatNOpcodes, List.mem_cons, List.not_mem_nil, or_false] at hn
    omega

theorem exists_encode_of_not_reserved {w : CmdWord} (h : ¬ wordReserved w = true) : ∃ i, encode i = w := by
  have hplain : ∀ op ∈ formatNOpcodes, ∃ i ∈ plainCommands, (encode i).toNat = op * 256 := by
    simp [formatNOpcodes, plainCommands, encode_toNat]
  have hword {i : Instr} (hi : (encode i).toNat = w.toNat / 256 * 256 + w.toNat % 256) : ∃ i, encode i = w :=
    ⟨i, BitVec.eq_of_toNat_eq (by omega)⟩
  obtain ⟨hop, hlow⟩ | hop | hop | hop := opcode_of_not_reserved h
  · obtain ⟨i, -, hi⟩ := hplain _ hop
    exact hword (hi.trans (by rw [hlow, Nat.add_zero]))
  · exact hword (i := .ckAdd (cmdImm w)) (by rw [encode_toNat, hop, ← cmdImm_toNat])
  · exact hword (i := .fbApp (cmdImm w)) (by rw [encode_toNat, hop, ← cmdImm_toNat])
  · exact hword (i := .fbRdb (cmdImm w)) (by rw [encode_toNat, hop, ← cmdImm_toNat])

theorem decode_eq_none_iff_reserved (w : CmdWord) : decode w = none ↔ wordReserved w = true := by
  constructor
  · intro hnone
    by_contra h
    obtain ⟨i, rfl⟩ := exists_encode_of_not_reserved h
    rw [decode_encode] at hnone
    cases hnone
  · intro h
    cases hd : decode w with
    | none => rfl
    | some i =>
      have hwf := wordWellFormed_encode i
      rw [encode_of_decode hd] at hwf
      simp [wordWellFormed, h] at hwf

/-- Settles O3: a command's word is not reserved, a word that is not reserved is a command's. -/
theorem reservedWordsAnswerIllegalCommand : Obligations.ReservedWordsAnswerIllegalCommand :=
  ⟨decode_eq_none_iff_reserved,
    fun w s h => Machine.executeWord_of_reserved ((decode_eq_none_iff_reserved w).2 h) s⟩

end Sys2Proof

/-!
The response word (O5): the fields of `30_encoding.md` R48 and the codes of R49, packed and read back.
-/

namespace Sys2Proof.Machine

/-! ### Status codes -/

theorem Status.ofCode_eq_some_iff (c : StatusCode) (st : Status) : Status.ofCode c = some st ↔ st.code = c := by
  constructor
  · have hcode : ∀ c, ∀ st ∈ Status.ofCode c, st.code = c := by decide
    exact hcode c st
  · rintro rfl
    cases st <;> rfl

/-- Codes 11 to 15 are unassigned (R49). -/
theorem Status.ofCode_eq_none_iff (c : StatusCode) : Status.ofCode c = none ↔ 11 ≤ c.toNat :=
  List.getElem?_eq_none_iff

/-! ### A response word is its four fields -/

theorem toNat_append_eq_add {m n : Nat} (a : BitVec m) (b : BitVec n) : (a ++ b).toNat = a.toNat * 2 ^ n + b.toNat := by
  rw [BitVec.toNat_append, ← Nat.shiftLeft_add_eq_or_of_lt b.isLt, Nat.shiftLeft_eq]

theorem Response.pack_toNat (r : Response) : r.pack.toNat
    = r.status.code.toNat * 2 ^ 24 + r.d2.toNat * 2 ^ 16 + r.d1.toNat * 2 ^ 8 + r.d0.toNat := by
  simp only [Response.pack, toNat_append_eq_add]
  omega

theorem statusField_toNat (w : RspWord) : (w.extractLsb' 24 4).toNat = w.toNat / 2 ^ 24 := by
  have := w.isLt
  rw [BitVec.extractLsb'_toNat, Nat.shiftRight_eq_div_pow]
  omega

/-- Two response words agree when their four fields do. -/
theorem Response.pack_eq_iff (r : Response) (w : RspWord) : r.pack = w ↔
    w.extractLsb' 24 4 = r.status.code ∧ w.extractLsb' 16 8 = r.d2 ∧ w.extractLsb' 8 8 = r.d1
      ∧ w.extractLsb' 0 8 = r.d0 := by
  simp only [BitVec.toNat_eq, Response.pack_toNat, BitVec.extractLsb'_toNat, Nat.shiftRight_eq_div_pow]
  have := w.isLt
  have := r.status.code.isLt
  have := r.d2.isLt
  have := r.d1.isLt
  have := r.d0.isLt
  omega

theorem Response.unpack_eq_some_iff (r : Response) (w : RspWord) : Response.unpack w = some r ↔ r.pack = w := by
  rw [Response.pack_eq_iff, Response.unpack, Option.map_eq_some_iff]
  constructor
  · rintro ⟨st, hst, rfl⟩
    exact ⟨((Status.ofCode_eq_some_iff _ _).1 hst).symm, rfl, rfl, rfl⟩
  · rintro ⟨hst, h2, h1, h0⟩
    exact ⟨r.status, (Status.ofCode_eq_some_iff _ _).2 hst.symm, by rw [h2, h1, h0]⟩

theorem Response.unpack_eq_none_iff (w : RspWord) : Response.unpack w = none ↔ 11 ≤ w.toNat / 2 ^ 24 := by
  rw [Response.unpack, Option.map_eq_none_iff, Status.ofCode_eq_none_iff, statusField_toNat]

/-- Settles O5: the fields by arithmetic, and a word is refused where its status code is. -/
theorem responseWordLayout : Obligations.ResponseWordLayout :=
  ⟨Response.pack_toNat, Response.unpack_eq_some_iff, Response.unpack_eq_none_iff⟩

end Sys2Proof.Machine

/-!
The assembler syntax (O6): the reader takes back what the printer writes (`30_encoding.md` R52). A printed operand is
a row of decimal digits, and reading such a row computes the number it was printed from.
-/

namespace Sys2Proof.Machine

/-! ### Decimal digits -/

theorem digitValue_ten {c : Char} (hc : c.isDigit = true) : digitValue 10 c = some (c.toNat - '0'.toNat) := by
  simp only [Char.isDigit, Bool.and_eq_true, decide_eq_true_eq] at hc
  have hrange : 48 ≤ c.toNat ∧ c.toNat ≤ 57 := hc
  have hlt : c.toNat - 48 < 10 := by omega
  simp [digitValue, hrange, hlt]

theorem readDigits_ten {cs : List Char} (hcs : ∀ c ∈ cs, c.isDigit = true) (acc : Nat) :
    readDigits 10 acc cs = (Nat.ofDigitChars 10 cs acc, []) := by
  induction cs generalizing acc with
  | nil => rfl
  | cons c cs ih =>
    simp only [List.forall_mem_cons] at hcs
    simp [readDigits, digitValue_ten hcs.1, ih hcs.2, Nat.ofDigitChars_cons, Nat.mul_comm]

theorem readNumber_ten {cs : List Char} (hcs : ∀ c ∈ cs, c.isDigit = true) (hne : cs ≠ [])
    (hlt : Nat.ofDigitChars 10 cs 0 < 256) :
    readNumber 10 cs = some (BitVec.ofNat 8 (Nat.ofDigitChars 10 cs 0), []) := by
  cases cs with
  | nil => exact absurd rfl hne
  | cons c cs =>
    simp only [List.forall_mem_cons] at hcs
    simp only [Nat.ofDigitChars_cons, Nat.mul_zero, Nat.zero_add] at hlt ⊢
    simp only [readNumber, digitValue_ten hcs.1, readDigits_ten hcs.2, if_pos hlt]

/-- Digits hold neither a quote nor an `x`, so they are read in decimal. -/
theorem readOperand_digits {cs : List Char} (hcs : ∀ c ∈ cs, c.isDigit = true) :
    readOperand cs = readNumber 10 cs := by
  unfold readOperand
  split
  · exact absurd (hcs '\'' (by simp)) (by decide)
  · exact absurd (hcs 'x' (by simp)) (by decide)
  · rfl

theorem readOperand_toDigits (b : Byte) : readOperand (Nat.toDigits 10 b.toNat) = some (b, []) := by
  have hdigits : ∀ c ∈ Nat.toDigits 10 b.toNat, c.isDigit = true :=
    fun c => Nat.isDigit_of_mem_toDigits (by omega) (by omega)
  rw [readOperand_digits hdigits, readNumber_ten hdigits Nat.toDigits_ne_nil] <;>
    simp [Nat.ofDigitChars_ten_toDigits, b.isLt]

/-! ### Lines -/

theorem dropWord_append (w cs : List Char) : dropWord w (w ++ cs) = some cs := by
  induction w with
  | nil => rfl
  | cons c w ih => simp [dropWord, ih]

/-- A format I command's reader takes the mnemonic, the space and the decimal operand. -/
theorem readWithOperand_decimal (mk : Byte → Instr) (b : Byte) :
    readWithOperand mk ((mk 0).mnemonic.toList ++ ' ' :: Nat.toDigits 10 b.toNat) = some (mk b) := by
  have hdrop := dropWord_append ((mk 0).mnemonic.toList ++ [' ']) (Nat.toDigits 10 b.toNat)
  rw [List.append_assoc, List.singleton_append] at hdrop
  simp only [readWithOperand, hdrop, readOperand_toDigits, lineEnds, if_true]

/-- Settles O6: a format N line is read as it stands; a format I line is refused, at the mnemonic, by each reader before
its own. -/
theorem assemblyReadsBack : Obligations.AssemblyReadsBack := by
  intro i
  cases i with
  | nop | ckClr | ckRd | ckRdd | fbLen | fbDet | fbCon | fbRst => decide
  | ckAdd b =>
    refine List.findSome?_eq_some_iff.2 ⟨[readPlain .nop, readPlain .ckClr], _, _, rfl,
      readWithOperand_decimal .ckAdd b, ?_⟩
    simp [readPlain, assembly, Instr.mnemonic, Instr.operand, dropWord]
  | fbApp b =>
    refine List.findSome?_eq_some_iff.2 ⟨[readPlain .nop, readPlain .ckClr, readWithOperand .ckAdd, readPlain .ckRd,
      readPlain .ckRdd], _, _, rfl, readWithOperand_decimal .fbApp b, ?_⟩
    simp [readPlain, readWithOperand, assembly, Instr.mnemonic, Instr.operand, dropWord]
  | fbRdb b =>
    refine List.findSome?_eq_some_iff.2 ⟨[readPlain .nop, readPlain .ckClr, readWithOperand .ckAdd, readPlain .ckRd,
      readPlain .ckRdd, readWithOperand .fbApp, readPlain .fbLen], _, _, rfl, readWithOperand_decimal .fbRdb b, ?_⟩
    simp [readPlain, readWithOperand, assembly, Instr.mnemonic, Instr.operand, dropWord]

end Sys2Proof.Machine

/-!
The command port without a reset (O7, O8): an accepted word is executed, a word that is not accepted has no effect
(`30_encoding.md` R55, `70_reset_and_hazards.md` R121).
-/

namespace Sys2Proof.Machine

/-! ### What a sample does in a state of the block -/

theorem portStep_unaccepted {s : State} {p : PortSample} (hv : s.Valid) (hr : p.rst = false)
    (hc : p.cmdValid = false) : portStep p s = .next s.idle := by
  rw [portStep_noRst hr, onState_valid hv]
  simp [accepted, hc]

theorem portStep_accepted {s : State} {p : PortSample} (hv : s.Valid) (hr : p.rst = false)
    (hc : p.cmdValid = true) (hrsp : p.rstBeforeRsp = false) : portStep p s = executeWord p.cmd s := by
  rw [portStep_noRst hr, onState_valid hv]
  simp [accepted, cmdReady, hr, hc, acceptCommand, hrsp]

theorem step_accepted {s : State} {p : PortSample} {rest : List PortSample} (hv : s.Valid) (hp : s.port = p :: rest)
    (hr : p.rst = false) (hc : p.cmdValid = true) (hrsp : p.rstBeforeRsp = false) :
    step s = executeWord p.cmd { s with port := rest } :=
  (step_cons hp).trans (portStep_accepted (hv.withPort rest) hr hc hrsp)

/-! ### The word that `withFetchWord` presents -/

theorem tableWord_toNat (w : CmdWord) : tableWord 16 w.toNat = w := by
  rw [tableWord, Nat.mod_eq_of_lt w.isLt, BitVec.ofNat_toNat, BitVec.setWidth_eq]

theorem State.withFetchWord_toNat (s : State) (w : CmdWord) : s.withFetchWord 16 w.toNat = s.present w :=
  congrArg s.present (tableWord_toNat w)

/-- The step takes the presented word off the port and leaves what was there. -/
theorem step_present {s : State} (hv : s.Valid) (w : CmdWord) : step (s.present w) = executeWord w s :=
  step_presented (hv.withPort (presented w :: s.port)) (State.present_port s w)

/-- Settles O7: an accepted word is executed (`step_accepted`), and the decoder says as what. -/
theorem stepRunsAcceptedCommand : Obligations.StepRunsAcceptedCommand := by
  constructor
  · intro s p rest hv hp hr hc hrsp
    rw [step_accepted hv hp hr hc hrsp]
    exact ⟨fun i hd => executeWord_of_decode hd _, fun hd => executeWord_of_reserved hd _⟩
  · intro s i hv
    rw [State.withFetchWord_toNat, step_present hv, executeWord_of_decode (decode_encode i)]

/-- Settles O8: without an accepted word the step only idles, whether a sample was presented or not. -/
theorem unacceptedWordHasNoEffect : Obligations.UnacceptedWordHasNoEffect := by
  constructor
  · intro s p rest hv hp hr hc
    exact (step_cons hp).trans (portStep_unaccepted (hv.withPort rest) hr hc)
  · intro s hv hp
    exact (step_nil hp).trans (onState_valid hv _)

end Sys2Proof.Machine

/-!
The two functions of the Checksum Unit (O22 to O24): as a byte, the checksum of a sequence is its sum in the bytes
(`40_checksum_unit.md` R57, R64, R66, R67), and the three digits of R58 are those of the decimal numeral.
-/

namespace Sys2Proof.Machine

/-! ### The sum of a sequence -/

theorem byteSum_append (u v : List Byte) : byteSum (u ++ v) = byteSum u + byteSum v := by simp [byteSum]

theorem byteSum_perm {u v : List Byte} (h : u.Perm v) : byteSum u = byteSum v := (h.map _).sum_eq

@[simp] theorem checksum_length (bytes : List Byte) : checksum bytes bytes.length = byteSum bytes % 256 := by
  simp [checksum]

theorem checksum_succ {bytes : List Byte} {n : Nat} {b : Byte} (h : bytes[n]? = some b) :
    checksum bytes (n + 1) = (checksum bytes n + b.toNat) % 256 := by
  have htake : bytes.take (n + 1) = bytes.take n ++ [b] := by rw [List.take_add_one, h]; rfl
  rw [checksum, checksum, htake, byteSum_append, Nat.mod_add_mod]
  simp [byteSum]

/-- Settles O22: `checksum_succ` for one more byte, and the sum of naturals for the rest. -/
theorem checksumIsSumModulo256 : Obligations.ChecksumIsSumModulo256 := by
  refine ⟨fun _ => rfl, fun _ _ _ => checksum_succ, fun u v => ?_, fun u v h => ?_,
    fun a b => Nat.mod_add_mod a 256 b⟩
  · rw [checksum_length, checksum_length, checksum_length, byteSum_append, Nat.add_mod]
  · rw [checksum_length, checksum_length, byteSum_perm h]

/-! ### The checksum as a byte -/

theorem checksumByte_toNat (bytes : List Byte) : (checksumByte bytes).toNat = byteSum bytes % 256 := by
  simp [checksumByte, countByte]

/-- The carries that `checksum` discards are those that addition of bytes discards (R63). -/
theorem checksumByte_eq_sum (bytes : List Byte) : checksumByte bytes = bytes.sum := by
  induction bytes with
  | nil => rfl
  | cons b bytes ih =>
    rw [List.sum_cons, ← ih]
    apply BitVec.eq_of_toNat_eq
    rw [BitVec.toNat_add, checksumByte_toNat, checksumByte_toNat, Nat.add_mod_mod]
    rfl

@[simp] theorem checksumByte_nil : checksumByte [] = 0 := rfl

theorem checksumByte_append (u v : List Byte) : checksumByte (u ++ v) = checksumByte u + checksumByte v := by
  simp [checksumByte_eq_sum]

theorem checksumByte_cons (b : Byte) (bytes : List Byte) : checksumByte (b :: bytes) = b + checksumByte bytes := by
  simp [checksumByte_eq_sum]

/-- Settles O23: bytes are added in a group, so a changed summand changes the sum, and what leaves the sum is not
seen. -/
theorem checksumSeesOneChangedByte : Obligations.ChecksumSeesOneChangedByte := by
  unfold Obligations.ChecksumSeesOneChangedByte
  simp only [checksumByte_append, checksumByte_cons]
  refine ⟨fun u v a b hab h => ?_, fun u v x a b => ⟨?_, ?_⟩, fun u v => ?_⟩
  · exact hab (add_right_cancel (add_left_cancel h))
  · ring
  · ring
  · rw [zero_add]

/-! ### Decimal digits -/

theorem digitByte_toNat {d : Nat} (h : d ≤ 9) : (digitByte d).toNat = 0x30 + d :=
  countByte_toNat_of_lt (show 0x30 + d < 256 by omega)

theorem digitByte_inj {d e : Nat} (hd : d ≤ 9) (he : e ≤ 9) (h : digitByte d = digitByte e) : d = e := by
  have hn := congrArg BitVec.toNat h
  rw [digitByte_toNat hd, digitByte_toNat he] at hn
  omega

theorem hundreds_le_two (v : Byte) : v.toNat / 100 ≤ 2 := by
  have := v.isLt
  omega

theorem decimal_digit_le_nine (n : Nat) : n % 10 ≤ 9 := by omega

/-- A byte is read back from its three digits (R58). -/
theorem dec3_injective {v w : Byte} (h : dec3 v = dec3 w) : v = w := by
  have hv := hundreds_le_two v
  have hw := hundreds_le_two w
  simp only [dec3, Prod.mk.injEq] at h
  obtain ⟨hhundreds, htens, hones⟩ := h
  have hhundreds := digitByte_inj (by omega) (by omega) hhundreds
  have htens := digitByte_inj (decimal_digit_le_nine _) (decimal_digit_le_nine _) htens
  have hones := digitByte_inj (decimal_digit_le_nine _) (decimal_digit_le_nine _) hones
  exact BitVec.eq_of_toNat_eq (by omega)

/-- Settles O24: the three digits are those of `dec3`'s definition, and the value is read back from them. -/
theorem dec3IsInjectiveAndDecimal : Obligations.Dec3IsInjectiveAndDecimal :=
  ⟨fun v => ⟨_, _, _, hundreds_le_two v, decimal_digit_le_nine (v.toNat / 10), decimal_digit_le_nine v.toNat,
    by omega, rfl⟩, fun _ _ => dec3_injective⟩

end Sys2Proof.Machine

/-!
The commands of the Checksum Unit (O18 to O21), each in every state (`40_checksum_unit.md` R59 to R62), and a sequence
of `CK.ADD` commands.
-/

namespace Sys2Proof.Machine

theorem exec_ckClr_eq (s : State) : exec .ckClr s = .next { s with acc := 0, rsp := some answerDone } := rfl

theorem exec_ckAdd_eq (b : Byte) (s : State) :
    exec (.ckAdd b) s = .next { s with acc := s.acc + b, rsp := some answerDone } := by
  rw [← addMod256_eq_add]
  rfl

theorem exec_ckRd_eq (s : State) : exec .ckRd s = .next { s with rsp := some (answerByte s.acc) } := rfl

theorem exec_ckRdd_eq (s : State) :
    exec .ckRdd s
      = .next { s with rsp := some { status := .success, d2 := digitByte (s.acc.toNat / 100),
                                     d1 := digitByte (s.acc.toNat / 10 % 10),
                                     d0 := digitByte (s.acc.toNat % 10) } } := rfl

/-- Settles O18: `exec_ckClr_eq` twice, then `exec_ckRd_eq`. -/
theorem ckClrClearsAcc : Obligations.CkClrClearsAcc :=
  ⟨rfl, fun s => ⟨_, exec_ckClr_eq s, rfl, exec_ckClr_eq _, exec_ckRd_eq _⟩⟩

/-- Settles O20: the answer is no part of what `CK.RD` reads. -/
theorem ckRdAnswersAcc : Obligations.CkRdAnswersAcc :=
  ⟨rfl, fun s => ⟨_, exec_ckRd_eq s, rfl, exec_ckRd_eq _⟩⟩

/-- Settles O21: the digits of R58, each as a number by `digitByte_toNat`. -/
theorem ckRddAnswersThreeDigits : Obligations.CkRddAnswersThreeDigits :=
  ⟨rfl, fun s => ⟨_, _, _, exec_ckRdd_eq s, digitByte_toNat ((hundreds_le_two s.acc).trans (by omega)),
    digitByte_toNat (decimal_digit_le_nine _), digitByte_toNat (decimal_digit_le_nine _)⟩⟩

/-! ### Repeated `CK.ADD` -/

theorem runInstrs_cons {i : Instr} {is : List Instr} {s t u : State} {rs : List Response}
    (h : exec i s = .next t) (hrest : runInstrs is t = .next (u, rs)) :
    runInstrs (i :: is) s = .next (u, t.rsp.toList ++ rs) := by
  have hw : executeWord (encode i) s = .next t := (executeWord_of_decode (decode_encode i) s).trans h
  rw [runInstrs] at hrest ⊢
  rw [List.map_cons, runWords_cons hw, hrest]

/-- `CK.ADD` once per byte adds the checksum of the bytes, from any state. -/
theorem runInstrs_ckAdds (b : Byte) (bytes : List Byte) (s : State) :
    runInstrs ((b :: bytes).map .ckAdd) s
      = .next ({ s with acc := s.acc + checksumByte (b :: bytes), rsp := some answerDone },
          List.replicate (b :: bytes).length answerDone) := by
  induction bytes generalizing b s with
  | nil =>
    rw [checksumByte_cons, checksumByte_nil, add_zero]
    exact runInstrs_cons (exec_ckAdd_eq b s) rfl
  | cons c bytes ih =>
    rw [List.map_cons, runInstrs_cons (exec_ckAdd_eq b s) (ih c _), checksumByte_cons b, ← add_assoc]
    rfl

theorem checksumByte_replicate_256 (b : Byte) : checksumByte (List.replicate 256 b) = 0 := by
  have h256 : ((256 : Nat) : Byte) = 0 := rfl
  rw [checksumByte_eq_sum, List.sum_replicate, nsmul_eq_mul, h256, zero_mul]

/-- Settles O19: one `CK.ADD` is `addMod256`, and 256 of them add a checksum that is 0 (`runInstrs_ckAdds`). -/
theorem ckAddAddsModulo256 : Obligations.CkAddAddsModulo256 := by
  refine ⟨fun b => ?_, fun s b => rfl, fun s => ?_, fun s b => ⟨List.replicate 256 answerDone, ?_⟩⟩
  · have := b.isLt
    apply BitVec.eq_of_toNat_eq
    rw [encode_toNat, BitVec.toNat_ofNat, Nat.mod_eq_of_lt (by omega)]
  · rw [exec_ckAdd_eq, add_zero]
  · have hrun := runInstrs_ckAdds b (List.replicate 255 b) s
    rw [← List.replicate_succ, List.map_replicate, checksumByte_replicate_256, add_zero,
      List.length_replicate] at hrun
    exact hrun

end Sys2Proof.Machine

/-!
The two units share nothing (O26), and `ACC` is the checksum of what was added (O25). That a command outside the
Checksum Unit leaves `ACC` follows from its not reading it: `exec_withAcc` (`40_checksum_unit.md` R65, R68). All of it
holds in every state, one that breaks the invariant of R17 included.
-/

namespace Sys2Proof.Machine

/-! ### No command outside the Checksum Unit reads `ACC` -/

/-- Outside the states of the block: `LEN` above the capacity. -/
theorem execFbApp_noCell {s : State} (b : Byte) (h : s.config.capacity < s.len.toNat) :
    execFbApp b s = .fault (.noSuchCell s.len.toNat) := by
  simp [execFbApp, bufferFull, storeCell, Nat.ne_of_gt h, Nat.not_lt.2 h.le]

/-- What `execFbApp_next` takes from the invariant of R17 an answer of `FB.APP` gives by itself. -/
theorem len_le_of_execFbApp_next {s t : State} {b : Byte} (h : execFbApp b s = .next t) :
    s.len.toNat ≤ s.config.capacity := by
  by_contra hlen
  cases (execFbApp_noCell b (Nat.lt_of_not_le hlen)).symm.trans h

section

variable {s t : State} (a : Byte)

theorem execFbApp_withAcc {b : Byte} (h : execFbApp b s = .next t) :
    execFbApp b { s with acc := a } = .next { t with acc := a } := by
  obtain hroom | hfull := (len_le_of_execFbApp_next h).lt_or_eq
  · cases (execFbApp_room b hroom).symm.trans h
    exact execFbApp_room (s := { s with acc := a }) b hroom
  · cases (execFbApp_full b hfull).symm.trans h
    exact execFbApp_full (s := { s with acc := a }) b hfull

theorem execFbRdb_withAcc {i : Byte} (h : execFbRdb i s = .next t) :
    execFbRdb i { s with acc := a } = .next { t with acc := a } := by
  obtain ⟨hi, rfl⟩ | ⟨b, hi, hr, rfl⟩ := execFbRdb_next h
  · exact execFbRdb_refused (s := { s with acc := a }) i hi
  · exact execFbRdb_held (s := { s with acc := a }) i hi hr

theorem detect_withAcc (s : State) (a : Byte) : detect { s with acc := a } = detect s :=
  detect_congr rfl fun _ _ => rfl

theorem answerDetection_withAcc {f : Nat → State → State}
    (hf : ∀ k s, f k { s with acc := a } = { f k s with acc := a }) (h : answerDetection f s = .next t) :
    answerDetection f { s with acc := a } = .next { t with acc := a } := by
  rw [answerDetection] at h ⊢
  rw [detect_withAcc]
  cases hd : detect s with
  | empty | noStart | noEnd =>
    rw [hd] at h
    cases h
    rfl
  | found start stop =>
    rw [hd] at h
    cases h
    simp only [respond_eq, hf]

theorem exec_withAcc {i : Instr} (hi : i.unit ≠ 1) (h : exec i s = .next t) :
    exec i { s with acc := a } = .next { t with acc := a } := by
  cases i with
  | nop | fbLen | fbRst => cases h; rfl
  | ckClr | ckAdd | ckRd | ckRdd => exact absurd rfl hi
  | fbApp b => exact execFbApp_withAcc a h
  | fbRdb k => exact execFbRdb_withAcc a h
  | fbDet => exact answerDetection_withAcc (f := fun _ t => t) a (fun _ _ => rfl) h
  | fbCon => exact answerDetection_withAcc (f := fun k t => t.lowerLen k) a (fun _ _ => rfl) h

end

/-- What does not depend on `ACC` leaves it: the next state with `ACC` as before is the next state. -/
theorem exec_acc {i : Instr} {s t : State} (hi : i.unit ≠ 1) (h : exec i s = .next t) : t.acc = s.acc := by
  have hsame : t = { t with acc := s.acc } := Host.Outcome.next.inj (h.symm.trans (exec_withAcc s.acc hi h))
  rw [hsame]

/-! ### The Checksum Unit and the window -/

/-- A CK command neither reads nor writes `LEN` and the cells. -/
theorem exec_ck_withWindow {i : Instr} {s t : State} (hi : i.unit = 1) (h : exec i s = .next t) :
    t.len = s.len ∧ t.mem = s.mem
      ∧ ∀ (l : Byte) (m : Memory), exec i { s with len := l, mem := m } = .next { t with len := l, mem := m } := by
  cases i with
  | ckClr | ckAdd | ckRd | ckRdd => cases h; exact ⟨rfl, rfl, fun _ _ => rfl⟩
  | nop | fbApp | fbLen | fbRdb | fbDet | fbCon | fbRst => cases hi

/-- Settles O26: `exec_ck_withWindow` one way, `exec_withAcc` the other. -/
theorem unitsShareNothing : Obligations.UnitsShareNothing := by
  refine ⟨fun i s t => exec_ck_withWindow, fun i s t hi h => ?_, fun w s t hw h => ?_⟩
  · have hunit : i.unit ≠ 1 := by omega
    exact ⟨exec_acc hunit h, fun a => exec_withAcc a hunit h⟩
  · obtain hd | hd := hw
    · cases (executeWord_of_reserved hd s).symm.trans h
      exact ⟨rfl, rfl, rfl⟩
    · rw [executeWord_of_decode hd] at h
      cases h
      exact ⟨rfl, rfl, rfl⟩

/-! ### `ACC` is the checksum of the bytes added since the last clear -/

theorem writesAcc_cases (w : CmdWord) :
    decode w = some .ckClr ∨ (∃ b, decode w = some (.ckAdd b)) ∨ writesAcc w = false := by
  unfold writesAcc
  split
  · next h => exact .inl h
  · next b h => exact .inr (.inl ⟨b, h⟩)
  · exact .inr (.inr rfl)

theorem executeWord_acc_of_not_writesAcc {w : CmdWord} {s t : State} (hw : writesAcc w = false)
    (h : executeWord w s = .next t) : t.acc = s.acc := by
  cases hd : decode w with
  | none =>
    cases (executeWord_of_reserved hd s).symm.trans h
    rfl
  | some i =>
    rw [executeWord_of_decode hd] at h
    cases i with
    | ckClr | ckAdd => simp [writesAcc, hd] at hw
    | ckRd | ckRdd => cases h; rfl
    | nop | fbApp | fbLen | fbRdb | fbDet | fbCon | fbRst => exact exec_acc (by simp [Instr.unit]) h

section

variable {w : CmdWord} (ws : List CmdWord) (before : List Byte)

theorem addedSinceClear_of_ckClr (h : decode w = some .ckClr) :
    addedSinceClear (w :: ws) before = addedSinceClear ws [] := by simp [addedSinceClear, h]

theorem addedSinceClear_of_ckAdd {b : Byte} (h : decode w = some (.ckAdd b)) :
    addedSinceClear (w :: ws) before = addedSinceClear ws (before ++ [b]) := by simp [addedSinceClear, h]

theorem addedSinceClear_of_not_writesAcc (h : writesAcc w = false) :
    addedSinceClear (w :: ws) before = addedSinceClear ws before := by
  rw [addedSinceClear]
  split
  · next hd => simp [writesAcc, hd] at h
  · next hd => simp [writesAcc, hd] at h
  · rfl

end

/-- The step of the ghost invariant of R65: the bytes that count after a word, and `ACC` is their checksum. -/
theorem executeWord_acc_checksum {w : CmdWord} {before : List Byte} {s t : State}
    (hacc : s.acc = checksumByte before) (h : executeWord w s = .next t) :
    ∃ added, t.acc = checksumByte added ∧ ∀ ws, addedSinceClear (w :: ws) before = addedSinceClear ws added := by
  obtain hd | ⟨b, hd⟩ | hw := writesAcc_cases w
  · cases ((executeWord_of_decode hd s).trans (exec_ckClr_eq s)).symm.trans h
    exact ⟨[], rfl, fun ws => addedSinceClear_of_ckClr ws before hd⟩
  · cases ((executeWord_of_decode hd s).trans (exec_ckAdd_eq b s)).symm.trans h
    refine ⟨before ++ [b], ?_, fun ws => addedSinceClear_of_ckAdd ws before hd⟩
    rw [checksumByte_append, checksumByte_cons, checksumByte_nil, add_zero, ← hacc]
  · exact ⟨before, (executeWord_acc_of_not_writesAcc hw h).trans hacc,
      fun ws => addedSinceClear_of_not_writesAcc ws before hw⟩

/-- A sequence that has a next state has one after its first word. -/
theorem executeWord_next_of_runWords {w : CmdWord} {ws : List CmdWord} {s : State} {r : State × List Response}
    (h : runWords (w :: ws) s = .next r) : ∃ t, executeWord w s = .next t := by
  cases ht : executeWord w s with
  | next t => exact ⟨t, rfl⟩
  | fault f => simp [runWords, ht] at h
  | refused r => simp [runWords, ht] at h

/-- R65 along a sequence, from any state in which `ACC` is the checksum of the bytes added before. -/
theorem runWords_acc_checksum (ws : List CmdWord) {before : List Byte} {s t : State} {rs : List Response}
    (hacc : s.acc = checksumByte before) (h : runWords ws s = .next (t, rs)) :
    t.acc = checksumByte (addedSinceClear ws before) := by
  induction ws generalizing before s rs with
  | nil =>
    cases h
    exact hacc
  | cons w ws ih =>
    obtain ⟨u, hu⟩ := executeWord_next_of_runWords h
    obtain ⟨rs', hrest⟩ := runWords_cons_next h hu
    obtain ⟨added, hadded, hwords⟩ := executeWord_acc_checksum hacc hu
    rw [hwords]
    exact ih hadded hrest

/-- Settles O25: `runWords_acc_checksum`, and after a reset every sequence runs and nothing has been added. -/
theorem accumulatorHoldsChecksum : Obligations.AccumulatorHoldsChecksum := by
  refine ⟨fun ws before s t rs => runWords_acc_checksum ws, fun ws s hc => ?_⟩
  obtain ⟨t, rs, hrun, -, -⟩ := runWords_answers ws (State.afterReset_valid hc)
  exact ⟨t, rs, hrun, runWords_acc_checksum ws checksumByte_nil.symm hrun⟩

end Sys2Proof.Machine

/-!
The frame buffer's commands (O27 to O31, O33, O41): those that append, read and reset, what detection finds, and what
`FB.DET` and `FB.CON` do about it. `41_frame_buffer.md` R69 to R75, R77, R81.
-/

namespace Sys2Proof.Machine

theorem encode_eq_ofNat {i : Instr} {n : Nat} (h : (encode i).toNat = n) : encode i = BitVec.ofNat 16 n := by
  rw [← h, BitVec.ofNat_toNat, BitVec.setWidth_eq]

/-! ### The plain commands -/

/-- Settles O28: `FB.LEN` is one response. -/
theorem fbLenAnswersLen : Obligations.FbLenAnswersLen :=
  ⟨encode_eq_ofNat (encode_toNat .fbLen), fun _ => rfl⟩

/-- Settles O29: `FB.RDB` by whether the index is below `LEN`, where every cell holds a byte. -/
theorem fbRdbReadsHeldCells : Obligations.FbRdbReadsHeldCells := by
  refine ⟨fun i => encode_eq_ofNat (encode_toNat (.fbRdb i)), fun s i hv => ⟨fun hi => ?_, execFbRdb_refused i⟩⟩
  obtain ⟨b, hb⟩ := hv.read_isSome hi
  exact ⟨b, hb, execFbRdb_held i hi hb⟩

theorem State.Valid.mem_of_len_zero {s : State} (hv : s.Valid) (h : s.len = 0) : s.mem = [] :=
  List.length_eq_zero_iff.1 (by rw [hv.mem_length, h]; rfl)

/-- Settles O33: `execFbRst_eq`, and an empty window has no cell to erase. -/
theorem fbRstEmptiesTheWindow : Obligations.FbRstEmptiesTheWindow := by
  refine ⟨encode_eq_ofNat (encode_toNat .fbRst), execFbRst_eq, fun s hv hlen => ?_⟩
  rw [exec_fbRst, execFbRst_eq, ← hlen, ← hv.mem_of_len_zero hlen]

/-! ### `FB.APP` -/

theorem State.Valid.appendCell_len {s : State} (hv : s.Valid) (b : Byte) (hroom : s.len.toNat < s.config.capacity) :
    (s.appendCell b).len.toNat = s.len.toNat + 1 := by
  have hcap := hv.config_ok
  rw [State.appendCell_len, BitVec.toNat_add_of_lt (by simp; omega)]
  rfl

theorem State.appendCell_read (s : State) (b : Byte) (i : Nat) :
    (s.appendCell b).mem.read i = if i = s.len.toNat then some b else s.mem.read i :=
  Memory.read_write s.mem s.len.toNat i b

/-- A full window stays as it is through every word that does not lower `LEN`: an append finds no room. -/
theorem WordEffect.window_of_full {w : CmdWord} {s t : State} (h : WordEffect w s t)
    (hfull : s.len.toNat = s.config.capacity) (hcon : decode w ≠ some .fbCon) (hrst : decode w ≠ some .fbRst)
    (hdet : ¬ (decode w = some .fbDet ∧ detect s = .noEnd)) : t.len = s.len ∧ t.mem = s.mem := by
  cases h with
  | same | clear | add => exact ⟨rfl, rfl⟩
  | append b hd hroom => omega
  | emptied hd => exact absurd hd hrst
  | dropped hd hn => exact absurd ⟨hd.resolve_right hcon, hn⟩ hdet
  | trimmed a e r hd => exact absurd hd hcon

/-- Settles O27: `execFbApp_full` with `WordEffect.window_of_full`, and `execFbApp_room` with the new cell. -/
theorem fbAppAppendsOrIsFull : Obligations.FbAppAppendsOrIsFull := by
  refine ⟨fun b => encode_eq_ofNat (encode_toNat (.fbApp b)), fun s b hv => ⟨fun hfull => ?_, fun hne => ?_⟩⟩
  · refine ⟨execFbApp_full b hfull, fun w t h hcon hrst hdet => ?_⟩
    obtain ⟨u, hu, heffect⟩ := executeWord_cases hv w
    cases hu.symm.trans h
    exact heffect.window_of_full hfull hcon hrst hdet
  · have hroom : s.len.toNat < s.config.capacity := lt_of_le_of_ne hv.len_le hne
    have hlen := hv.appendCell_len b hroom
    refine ⟨_, _, execFbApp_room b hroom, hlen, ?_, fun a ha => ?_, fun hlast c => ?_⟩
    · exact Memory.read_write_same _ _ _
    · exact Memory.read_write_other _ _ _ _ ha
    · exact execFbApp_full (s := { s.appendCell b with rsp := some answerDone }) c (hlen.trans hlast)

/-! ### Detection -/

theorem StartAt.detect_noEnd {s : State} {start : Nat} (hs : StartAt s start)
    (hno : ∀ j, start < j → j < s.len.toNat → s.mem.read j ≠ some eof) : detect s = .noEnd :=
  detect_of_endIndex_none (startIndex_eq_some.2 hs) (endIndex_eq_none.2 hno)

theorem detect_eq_found_iff {s : State} {start stop : Nat} :
    detect s = .found start stop ↔ StartAt s start ∧ EndAt s start stop := by
  rw [detect_eq_found, startIndex_eq_some, endIndex_eq_some]

/-- Settles O30: the scans find the least indices (`startIndex_eq_some`, `endIndex_eq_some` and their negations). -/
theorem detectionMeetsItsDefinition : Obligations.DetectionMeetsItsDefinition := by
  intro s
  refine ⟨detect_eq_empty, ?_, ?_, fun start stop => detect_eq_found_iff, fun start stop h => ?_⟩
  · rw [detect_eq_noStart, startIndex_eq_none]
  · simp only [detect_eq_noEnd, startIndex_eq_some, endIndex_eq_none]
  · obtain ⟨hlt, hlen, -⟩ := found_bounds h
    omega

/-- A `#` with some `!` behind it in the window has a least `#` at or before it, and that one has a least `!`. -/
theorem exists_found_of_markers {s : State} {i j : Nat} (hij : i < j) (hj : j < s.len.toNat)
    (hi : s.mem.read i = some sof) (he : s.mem.read j = some eof) : ∃ start stop, detect s = .found start stop := by
  rcases detect_cases s with ⟨-, h⟩ | ⟨-, -, h⟩ | ⟨start, -, hs, h⟩ | ⟨start, stop, h, -⟩
  · omega
  · exact absurd hi (startIndex_eq_none.1 h i (hij.trans hj))
  · obtain ⟨-, -, hleast⟩ := startIndex_eq_some.1 hs
    have hle : start ≤ i := not_lt.1 fun hlt => hleast i hlt hi
    exact absurd he (endIndex_eq_none.1 h j (hle.trans_lt hij) hj)
  · exact ⟨start, stop, h⟩

/-- Settles O41: a found span is a `#` with a `!` behind it, and conversely (`exists_found_of_markers`). -/
theorem innerStartMarkerIsData : Obligations.InnerStartMarkerIsData := by
  refine fun s => ⟨⟨fun ⟨start, stop, h⟩ => ?_, fun ⟨i, j, hij, hj, hi, he⟩ => exists_found_of_markers hij hj hi he⟩,
    fun start stop i h _ hi => ?_⟩
  · obtain ⟨⟨-, hsof, -⟩, hlt, hlen, heof, -⟩ := detect_eq_found_iff.1 h
    exact ⟨start, stop, hlt, hlen, hsof, heof⟩
  · obtain ⟨⟨-, -, hleast⟩, -⟩ := detect_eq_found_iff.1 h
    exact not_lt.1 fun hlt => hleast i hlt hi

/-! ### `FB.DET` and `FB.CON` -/

/-- The answer `(E - S + 1, E, S)` to a found span (R75, R76). -/
def answerSpan (start stop : Nat) : Response :=
  { status := .success, d2 := countByte (stop - start + 1), d1 := countByte stop, d0 := countByte start }

theorem execFbDet_found {s : State} {start stop : Nat} (h : detect s = .found start stop) :
    exec .fbDet s = .next { s with rsp := some (answerSpan start stop) } :=
  answerDetection_found (fun _ t => t) h

theorem execFbCon_found {s : State} {start stop : Nat} (h : detect s = .found start stop) :
    exec .fbCon s = .next { s.lowerLen start with rsp := some (answerSpan start stop) } :=
  answerDetection_found (fun a t => t.lowerLen a) h

/-- A found span lies below 255, so its length and its indices are the bytes of the answer. -/
theorem answerSpan_toNat {s : State} {start stop : Nat} (h : detect s = .found start stop) :
    (answerSpan start stop).d2.toNat = stop - start + 1 ∧ (answerSpan start stop).d1.toNat = stop
      ∧ (answerSpan start stop).d0.toNat = start := by
  obtain ⟨hlt, -, hstop⟩ := found_bounds h
  exact ⟨countByte_toNat_of_lt (by omega), countByte_toNat_of_lt (by omega), countByte_toNat_of_lt (by omega)⟩

/-- Settles O31: the outcomes of detection, one by one. -/
theorem fbDetReportsTheSpan : Obligations.FbDetReportsTheSpan := by
  refine ⟨encode_eq_ofNat (encode_toNat .fbDet), fun s => ⟨fun h => ?_, fun h0 hno => ?_, fun start hs hno => ?_,
    fun start stop hs he => ?_⟩⟩
  · exact (exec_fbDet s).trans (answerDetection_empty _ (detect_of_len_zero h))
  · exact (exec_fbDet s).trans (answerDetection_noStart _ (detect_of_startIndex_none h0 (startIndex_eq_none.2 hno)))
  · exact (exec_fbDet s).trans (answerDetection_noEnd _ (hs.detect_noEnd hno))
  · have hd := detect_eq_found_iff.2 ⟨hs, he⟩
    exact ⟨_, _, _, execFbDet_found hd, answerSpan_toNat hd⟩

end Sys2Proof.Machine

/-!
The frame buffer over sequences of words (O32, O39, O40, O54): a word that does not lower `LEN` extends the window, and
a span that detection finds is found in every longer window. `41_frame_buffer.md` R76, R78 to R80.
-/

namespace Sys2Proof.Machine

/-! ### A longer window -/

/-- The window of `t` is that of `s`, perhaps with more cells behind it. -/
def State.Extends (s t : State) : Prop :=
  s.len.toNat ≤ t.len.toNat ∧ ∀ i, i < s.len.toNat → t.mem.read i = s.mem.read i

theorem State.Extends.refl (s : State) : s.Extends s := ⟨le_rfl, fun _ _ => rfl⟩

theorem State.Extends.trans {s t u : State} (hst : s.Extends t) (htu : t.Extends u) : s.Extends u :=
  ⟨hst.1.trans htu.1, fun i hi => (htu.2 i (hi.trans_le hst.1)).trans (hst.2 i hi)⟩

theorem State.Valid.extends_appendCell {s : State} (hv : s.Valid) (b : Byte)
    (hroom : s.len.toNat < s.config.capacity) : s.Extends (s.appendCell b) :=
  ⟨by have := hv.appendCell_len b hroom; omega, fun i hi => by rw [s.appendCell_read, if_neg hi.ne]⟩

theorem StartAt.extends {s t : State} {start : Nat} (h : s.Extends t) (hs : StartAt s start) : StartAt t start := by
  obtain ⟨hlen, hread⟩ := h
  obtain ⟨hlt, hsof, hleast⟩ := hs
  exact ⟨hlt.trans_le hlen, (hread start hlt).trans hsof, fun i hi => (hread i (hi.trans hlt)).symm ▸ hleast i hi⟩

theorem EndAt.extends {s t : State} {start stop : Nat} (h : s.Extends t) (he : EndAt s start stop) :
    EndAt t start stop := by
  obtain ⟨hlen, hread⟩ := h
  obtain ⟨hgt, hlt, heof, hleast⟩ := he
  exact ⟨hgt, hlt.trans_le hlen, (hread stop hlt).trans heof,
    fun j hj hj' => (hread j (hj'.trans hlt)).symm ▸ hleast j hj hj'⟩

theorem State.Extends.detect_found {s t : State} {start stop : Nat} (h : s.Extends t)
    (hd : detect s = .found start stop) : detect t = .found start stop := by
  obtain ⟨hs, he⟩ := detect_eq_found_iff.1 hd
  exact detect_eq_found_iff.2 ⟨hs.extends h, he.extends h⟩

/-- A word extends the window, or it is one of those that lower `LEN` and the state is one in which it does. -/
theorem WordEffect.extends_or_lowers {w : CmdWord} {s t : State} (hv : s.Valid) (h : WordEffect w s t) :
    s.Extends t ∨ decode w = some .fbRst
      ∨ ((decode w = some .fbDet ∨ decode w = some .fbCon) ∧ detect s = .noEnd)
      ∨ (decode w = some .fbCon ∧ ∃ start stop, detect s = .found start stop) := by
  cases h with
  | same | clear | add => exact .inl (.refl s)
  | append b hd hroom => exact .inl (hv.extends_appendCell b hroom)
  | emptied hd => exact .inr (.inl hd)
  | dropped hd hn => exact .inr (.inr (.inl ⟨hd, hn⟩))
  | trimmed start stop r hd hf => exact .inr (.inr (.inr ⟨hd, start, stop, hf⟩))

/-! ### A found span (R78) -/

theorem not_fbCon_fbRst_of_endsSpan {w : CmdWord} (h : endsSpan w = false) :
    decode w ≠ some .fbCon ∧ decode w ≠ some .fbRst := by
  constructor <;> intro hd <;> simp [endsSpan, hd] at h

/-- While a span is found, only `FB.CON` and `FB.RST` lower `LEN`: an `FB.DET` finds the span. -/
theorem WordEffect.extends_of_found {w : CmdWord} {s t : State} {start stop : Nat} (hv : s.Valid)
    (h : WordEffect w s t) (hd : detect s = .found start stop) (hw : endsSpan w = false) : s.Extends t := by
  obtain ⟨hcon, hrst⟩ := not_fbCon_fbRst_of_endsSpan hw
  obtain hext | hd' | ⟨-, hn⟩ | ⟨hd', -⟩ := h.extends_or_lowers hv
  · exact hext
  · exact absurd hd' hrst
  · cases hd.symm.trans hn
  · exact absurd hd' hcon

theorem runWords_extends_of_found (ws : List CmdWord) {s : State} {start stop : Nat} (hv : s.Valid)
    (hd : detect s = .found start stop) (hws : ∀ w ∈ ws, endsSpan w = false) :
    ∃ t rs, runWords ws s = .next (t, rs) ∧ s.Extends t := by
  obtain ⟨t, rs, hrun, -, hext⟩ := runWords_induction (P := s.Extends) (good := fun w => endsSpan w = false)
    (fun w t u hw hvt hext _ heffect => hext.trans (heffect.extends_of_found hvt (hext.detect_found hd) hw))
    ws s hv (.refl s) hws
  exact ⟨t, rs, hrun, hext⟩

theorem WordEffect.extends_of_fbApp {w : CmdWord} {s t : State} {b : Byte} (hv : s.Valid) (h : WordEffect w s t)
    (hw : decode w = some (.fbApp b)) : s.Extends t := by
  simpa [hw] using h.extends_or_lowers hv

/-- Appends extend the window of every state of the block, whatever detection finds in it. -/
theorem runInstrs_fbPut_extends (bytes : List Byte) {s : State} (hv : s.Valid) :
    ∃ t rs, runInstrs (fbPut bytes) s = .next (t, rs) ∧ s.Extends t := by
  have happ : ∀ w ∈ (fbPut bytes).map encode, ∃ b, decode w = some (.fbApp b) := by simp [fbPut, decode_encode]
  obtain ⟨t, rs, hrun, -, hext⟩ := runWords_induction (P := s.Extends)
    (fun w t u ⟨b, hb⟩ hvt hext _ heffect => hext.trans (heffect.extends_of_fbApp hvt hb)) _ s hv (.refl s) happ
  exact ⟨t, rs, hrun, hext⟩

/-- Settles O39: the words extend the window (`runWords_extends_of_found`), in which the span is found again. -/
theorem foundSpanSurvives : Obligations.FoundSpanSurvives := by
  refine ⟨fun ws s start stop hv hd hws => ?_, fun bytes s start hv hs => ?_⟩
  · obtain ⟨t, rs, hrun, hext⟩ := runWords_extends_of_found ws hv hd hws
    obtain ⟨-, hstop, -⟩ := found_bounds hd
    have hdt := hext.detect_found hd
    exact ⟨t, rs, hrun, hdt, fun i hi => hext.2 i (hi.trans_lt hstop),
      _, answerSpan start stop, execFbCon_found hdt, rfl, execFbDet_found hd⟩
  · obtain ⟨t, rs, hrun, hext⟩ := runInstrs_fbPut_extends bytes hv
    exact ⟨t, rs, hrun, startIndex_eq_some.2 ((startIndex_eq_some.1 hs).extends hext)⟩

/-! ### A window without a start marker (R79) -/

theorem detect_of_no_sof {s : State} (h : ∀ i, s.mem.read i ≠ some sof) :
    detect s = if s.len.toNat = 0 then .empty else .noStart := by
  split
  · exact detect_of_len_zero ‹_›
  · exact detect_of_startIndex_none (by omega) (startIndex_eq_none.2 fun i _ => h i)

theorem detect_empty_or_noStart_of_no_sof {s : State} (h : ∀ i, s.mem.read i ≠ some sof) :
    detect s = .empty ∨ detect s = .noStart := by
  rw [detect_of_no_sof h]
  split
  · exact .inl rfl
  · exact .inr rfl

/-- No word but an append of `#` brings a `#` into the window. -/
theorem WordEffect.no_sof {w : CmdWord} {s t : State} (h : WordEffect w s t) (hs : ∀ i, s.mem.read i ≠ some sof)
    (hw : appendsStart w = false) : ∀ i, t.mem.read i ≠ some sof := by
  intro i hi
  obtain hheld | ⟨-, -, hd, -⟩ := h.read_cases hi
  · exact hs i hheld
  · simp [appendsStart, hd] at hw

/-- Without a `#` in the window only `FB.RST` lowers `LEN`. -/
theorem WordEffect.extends_of_no_sof {w : CmdWord} {s t : State} (hv : s.Valid) (h : WordEffect w s t)
    (hs : ∀ i, s.mem.read i ≠ some sof) (hw : emptiesWindow w = false) : s.Extends t := by
  have hd := detect_empty_or_noStart_of_no_sof hs
  obtain hext | hrst | ⟨-, hn⟩ | ⟨-, start, stop, hf⟩ := h.extends_or_lowers hv
  · exact hext
  · simp [emptiesWindow, hrst] at hw
  · simp [hn] at hd
  · simp [hf] at hd

/-- Through words that append no `#` the window has none, and without an `FB.RST` it is only extended. -/
theorem runWords_no_sof (ws : List CmdWord) {s : State} (hv : s.Valid) (hs : ∀ i, s.mem.read i ≠ some sof)
    (hws : ∀ w ∈ ws, appendsStart w = false) :
    ∃ t rs, runWords ws s = .next (t, rs) ∧ (∀ i, t.mem.read i ≠ some sof)
      ∧ ((∀ w ∈ ws, emptiesWindow w = false) → s.Extends t) := by
  by_cases hkeep : ∀ w ∈ ws, emptiesWindow w = false
  · obtain ⟨t, rs, hrun, -, hext, ht⟩ := runWords_induction
      (P := fun t => s.Extends t ∧ ∀ i, t.mem.read i ≠ some sof)
      (good := fun w => emptiesWindow w = false ∧ appendsStart w = false)
      (fun w t u ⟨hkeep, hw⟩ hvt ⟨hext, ht⟩ _ heffect =>
        ⟨hext.trans (heffect.extends_of_no_sof hvt ht hkeep), heffect.no_sof ht hw⟩)
      ws s hv ⟨.refl s, hs⟩ fun w hw => ⟨hkeep w hw, hws w hw⟩
    exact ⟨t, rs, hrun, ht, fun _ => hext⟩
  · obtain ⟨t, rs, hrun, -, ht⟩ := runWords_induction
      (P := fun t => ∀ i, t.mem.read i ≠ some sof) (good := fun w => appendsStart w = false)
      (fun w t u hw _ ht _ heffect => heffect.no_sof ht hw) ws s hv hs hws
    exact ⟨t, rs, hrun, ht, fun h => absurd h hkeep⟩

/-! ### The trim of `FB.CON` -/

theorem State.lowerLen_len_toNat {s : State} {n : Nat} (h : n ≤ s.len.toNat) : (s.lowerLen n).len.toNat = n :=
  countByte_toNat_of_lt (by have := s.len.isLt; omega)

theorem State.lowerLen_read (s : State) (n i : Nat) :
    (s.lowerLen n).mem.read i = if i < n then s.mem.read i else none :=
  Memory.read_eraseFrom s.mem n i

/-- Below the least `#` there is none. -/
theorem StartAt.lowerLen_no_sof {s : State} {start : Nat} (hs : StartAt s start) (i : Nat) :
    (s.lowerLen start).mem.read i ≠ some sof := by
  obtain ⟨-, -, hleast⟩ := hs
  rw [s.lowerLen_read]
  split
  · exact hleast i ‹_›
  · simp

theorem execFbCon_of_no_sof {s : State} (h : ∀ i, s.mem.read i ≠ some sof) :
    exec .fbCon s = .next
      { s with rsp := some (answerError (if s.len.toNat = 0 then .emptyBuffer else .missingStartOfFrame)) } := by
  have hd := detect_of_no_sof h
  rw [exec_fbCon]
  split at hd
  · rw [if_pos ‹_›]; exact answerDetection_empty _ hd
  · rw [if_neg ‹_›]; exact answerDetection_noStart _ hd

/-- Settles O32: the outcomes of detection, one by one; after the trim no `#` is left, and before it no word disturbs
the span (`runWords_extends_of_found`). -/
theorem fbConTrimsToTheStart : Obligations.FbConTrimsToTheStart := by
  refine ⟨encode_eq_ofNat (encode_toNat .fbCon), fun s => ⟨fun h => ?_, fun h0 hno => ?_, fun start hs hno => ?_,
    fun start stop hs he => ?_⟩⟩
  · exact (exec_fbCon s).trans (answerDetection_empty _ (detect_of_len_zero h))
  · exact (exec_fbCon s).trans (answerDetection_noStart _ (detect_of_startIndex_none h0 (startIndex_eq_none.2 hno)))
  · exact (exec_fbCon s).trans (answerDetection_noEnd _ (hs.detect_noEnd hno))
  · have hd := detect_eq_found_iff.2 ⟨hs, he⟩
    have hlen := State.lowerLen_len_toNat hs.1.le
    obtain ⟨h2, h1, h0⟩ := answerSpan_toNat hd
    refine ⟨_, _, answerSpan start stop, execFbCon_found hd, execFbDet_found hd, rfl, h2, h1, h0, hlen,
      s.lowerLen_read start, hs.lowerLen_no_sof, ⟨_, rfl, ?_⟩, fun ws hv hws => ?_⟩
    · have h := execFbCon_of_no_sof (s := { s.lowerLen start with rsp := some (answerSpan start stop) })
        hs.lowerLen_no_sof
      simp only [hlen] at h
      exact h
    · obtain ⟨t, rs, hrun, hext⟩ := runWords_extends_of_found ws hv hd hws
      exact ⟨t, rs, _, hrun, execFbCon_found (hext.detect_found hd), rfl, rfl⟩

/-- Settles O40: the trim leaves no `#`, and none comes back (`runWords_no_sof`). -/
theorem consumedWindowHasNoStart : Obligations.ConsumedWindowHasNoStart := by
  intro s start stop hv hd
  obtain ⟨hs, -⟩ := detect_eq_found_iff.1 hd
  have hlen := State.lowerLen_len_toNat hs.1.le
  refine ⟨_, execFbCon_found hd, hlen, hs.lowerLen_no_sof, ?_, fun ws hws => ?_⟩
  · rw [detect_withRsp, detect_of_no_sof hs.lowerLen_no_sof, hlen]
  · obtain ⟨u, rs, hrun, hu, hext⟩ := runWords_no_sof ws
      ((hv.lowerLen hs.1.le).of_window (t := { s.lowerLen start with rsp := some (answerSpan start stop) }) rfl rfl rfl)
      hs.lowerLen_no_sof hws
    refine ⟨u, rs, hrun, detect_empty_or_noStart_of_no_sof hu, fun hkeep i hi => ?_⟩
    calc u.mem.read i = (s.lowerLen start).mem.read i := (hext hkeep).2 i (hi.trans_eq hlen.symm)
      _ = s.mem.read i := by rw [s.lowerLen_read, if_pos hi]

/-- The window `xy#L1125!#B0`: a frame with bytes before it and the beginning of another behind it. -/
def State.frameAmongOthers : State :=
  ListView.toState Config.reference
    { acc := 0, window := [0x78, 0x79, sof, 0x4C, 0x31, 0x31, 0x32, 0x35, eof, sof, 0x42, 0x30] }

/-- Refutes O54: on `xy#L1125!#B0` the trim leaves `xy` and not `xy#B0`. -/
theorem not_clearingKeepsTheBytesBehind : ¬ Obligations.ClearingKeepsTheBytesBehind := by
  intro h
  have hd : detect State.frameAmongOthers = .found 2 8 := by decide
  have hwindow := h _ _ 2 8 (by decide) hd (execFbCon_found hd)
  exact absurd hwindow (by decide)

end Sys2Proof.Machine

/-!
The frame buffer one command at a time (O35, O37, O42): how `LEN` moves, and what detection finds once one more byte is
in the window. `41_frame_buffer.md` R83, R84, R86.
-/

namespace Sys2Proof.Machine

/-! ### `LEN` goes up by one, or down -/

theorem exec_wordEffect {i : Instr} {s t : State} (hv : s.Valid) (h : exec i s = .next t) :
    WordEffect (encode i) s t := by
  obtain ⟨u, hu, heffect⟩ := executeWord_cases hv (encode i)
  cases ((executeWord_of_decode (decode_encode i) s).symm.trans hu).symm.trans h
  exact heffect

theorem State.len_zero_or_pos (s : State) : s.len = 0 ∨ 0 < s.len.toNat :=
  (Nat.eq_zero_or_pos s.len.toNat).imp_left BitVec.eq_of_toNat_eq

theorem decode_encode_eq_iff {i j : Instr} : decode (encode i) = some j ↔ i = j := by
  rw [decode_encode, Option.some.injEq]

/-- Settles O35: `WordEffect` lists what a command can do to `LEN`; on an empty window a reset leaves it. -/
theorem commandsChangeLenAsStated : Obligations.CommandsChangeLenAsStated := by
  intro i s t hv h
  have heffect := exec_wordEffect hv h
  refine ⟨heffect.valid hv, ?_⟩
  cases heffect with
  | same | clear | add => exact .inl rfl
  | append b hd hroom => exact .inr (.inl ⟨hv.appendCell_len b hroom, hroom, b, decode_encode_eq_iff.1 hd⟩)
  | emptied hd =>
    obtain h0 | h0 := s.len_zero_or_pos
    · exact .inl h0.symm
    · exact .inr (.inr ⟨h0, .inl ⟨rfl, .inr (.inr (decode_encode_eq_iff.1 hd))⟩⟩)
  | dropped hd =>
    obtain h0 | h0 := s.len_zero_or_pos
    · exact .inl h0.symm
    · have hi := hd.imp decode_encode_eq_iff.1 decode_encode_eq_iff.1
      exact .inr (.inr ⟨h0, .inl ⟨rfl, hi.imp_right .inl⟩⟩)
  | trimmed start stop r hd hf =>
    obtain ⟨hs, -⟩ := detect_eq_found_iff.1 hf
    have hlen := State.lowerLen_len_toNat hs.1.le
    exact .inr (.inr ⟨hlen.trans_lt hs.1, .inr ⟨decode_encode_eq_iff.1 hd, hlen.symm ▸ hs⟩⟩)

/-- Settles O37: every word keeps the invariant, by which no cell at or above `LEN` holds a value. -/
theorem erasedCellsCannotBeRead : Obligations.ErasedCellsCannotBeRead := by
  refine ⟨fun s i hv => hv.read_none_iff i, fun w s t hv h _ k hk => ?_⟩
  obtain ⟨u, hu, heffect⟩ := executeWord_cases hv w
  cases hu.symm.trans h
  exact ⟨((heffect.valid hv).read_none_iff k.toNat).2 hk, execFbRdb_refused k hk⟩

/-! ### Detection after one append -/

theorem scanFrom_succ_last {m m' : Memory} {v : Byte} {i n : Nat} (hr : ∀ j, j < i + n → m'.read j = m.read j) :
    scanFrom m' v i (n + 1) = (scanFrom m v i n).or (if m'.read (i + n) = some v then some (i + n) else none) := by
  induction n generalizing i with
  | zero => simp [scanFrom]
  | succ n ih =>
    have hstep : i + 1 + n = i + (n + 1) := by omega
    rw [scanFrom, ih (by rwa [hstep]), hr i (by omega), scanFrom, hstep]
    split <;> rfl

section

variable {s : State} (hv : s.Valid) (b : Byte) (hroom : s.len.toNat < s.config.capacity)
include hv hroom

/-- What a scan found it still finds; what it did not find it finds in the new cell, if there. -/
theorem firstIndex_appendCell (v : Byte) {a : Nat} (ha : a ≤ s.len.toNat) :
    firstIndex (s.appendCell b).mem v a (s.appendCell b).len.toNat
      = (firstIndex s.mem v a s.len.toNat).or (if b = v then some s.len.toNat else none) := by
  have hlast : a + (s.len.toNat - a) = s.len.toNat := by omega
  have hbelow : ∀ j, j < a + (s.len.toNat - a) → (s.appendCell b).mem.read j = s.mem.read j := fun j hj => by
    rw [s.appendCell_read, if_neg (by omega)]
  rw [firstIndex, firstIndex, hv.appendCell_len b hroom, Nat.succ_sub ha, scanFrom_succ_last hbelow, hlast]
  simp only [s.appendCell_read, if_true, Option.some.injEq]

theorem startIndex_appendCell :
    startIndex (s.appendCell b) = (startIndex s).or (if b = sof then some s.len.toNat else none) :=
  firstIndex_appendCell hv b hroom sof (Nat.zero_le _)

theorem endIndex_appendCell {start : Nat} (h : start < s.len.toNat) :
    endIndex (s.appendCell b) start = (endIndex s start).or (if b = eof then some s.len.toNat else none) :=
  firstIndex_appendCell hv b hroom eof h

/-- A `#` in the last cell has no `!` behind it. -/
theorem endIndex_appendCell_last : endIndex (s.appendCell b) s.len.toNat = none :=
  endIndex_eq_none.2 fun j hj hj' => by
    rw [hv.appendCell_len b hroom] at hj'
    omega

theorem detect_appendCell_of_no_start (hs : startIndex s = none) :
    detect (s.appendCell b) = if b = sof then .noEnd else .noStart := by
  have hstart := startIndex_appendCell hv b hroom
  rw [hs, Option.none_or] at hstart
  split at hstart
  · rw [if_pos ‹_›]
    exact detect_of_endIndex_none hstart (endIndex_appendCell_last hv b hroom)
  · rw [if_neg ‹_›]
    exact detect_of_startIndex_none (by rw [hv.appendCell_len b hroom]; omega) hstart

theorem detect_appendCell_of_no_end {start : Nat} (hs : startIndex s = some start) (he : endIndex s start = none) :
    detect (s.appendCell b) = if b = eof then .found start s.len.toNat else .noEnd := by
  have hstart := startIndex_appendCell hv b hroom
  have hend := endIndex_appendCell hv b hroom (startIndex_eq_some.1 hs).1
  rw [hs, Option.some_or] at hstart
  rw [he, Option.none_or] at hend
  split at hend
  · rw [if_pos ‹_›]
    exact detect_of_endIndex_some hstart hend
  · rw [if_neg ‹_›]
    exact detect_of_endIndex_none hstart hend

end

/-- Settles O42: the outcome before the append says what the scans find in the new cell. -/
theorem outcomeAfterOneAppend : Obligations.OutcomeAfterOneAppend := by
  intro s t b hv h
  obtain ⟨hfull, rfl⟩ | ⟨hroom, rfl⟩ := execFbApp_next hv h <;> rw [detect_withRsp]
  · exact ⟨fun _ => rfl, fun hne => absurd hfull hne⟩
  · refine ⟨fun hfull => absurd hfull hroom.ne, fun _ => ⟨fun hd => ?_, fun hd => ?_, fun start hd hs => ?_,
      fun start stop hd => ?_⟩⟩
    · have hlen := detect_eq_empty.1 hd
      exact detect_appendCell_of_no_start hv b hroom (startIndex_eq_none.2 fun i hi => by omega)
    · obtain ⟨-, hs⟩ := detect_eq_noStart.1 hd
      exact detect_appendCell_of_no_start hv b hroom hs
    · obtain ⟨start', hs', he⟩ := detect_eq_noEnd.1 hd
      cases hs.symm.trans hs'
      exact detect_appendCell_of_no_end hv b hroom hs he
    · exact (hv.extends_appendCell b hroom).detect_found hd

end Sys2Proof.Machine

/-!
The system family (O17): `NOP` in every state, and the words of unit 0 that are not `NOP` (`42_system.md` R87).
-/

namespace Sys2Proof.Machine

theorem exec_nop_eq (s : State) : exec .nop s = .next { s with rsp := some answerDone } := by
  rw [exec_nop, execNop, respondDone_eq]

/-- `NOP` is the one command of unit 0: R47's second clause reserves every other word of the unit. -/
theorem wordReserved_of_unit_zero {w : CmdWord} (hunit : wordUnit w = 0) (hne : w.toNat ≠ 0) :
    wordReserved w = true := by
  simp [wordReserved, hunit, hne]

/-- Settles O17: `exec_nop_eq`, and a word from 0x0001 to 0x00FF is of unit 0 and not `NOP`. -/
theorem nopChangesNothing : Obligations.NopChangesNothing := by
  refine ⟨encode_eq_ofNat (encode_toNat .nop), exec_nop_eq, fun w hlo hhi => ?_⟩
  have hunit : wordUnit w = 0 := Nat.div_eq_of_lt (by omega)
  exact (decode_eq_none_iff_reserved w).2 (wordReserved_of_unit_zero hunit (by omega))

end Sys2Proof.Machine

/-!
The sums that `CKSUM` and `CKSUMD` answer (O48, O49): a sequence and one more word, the words of a sequence that count
towards `ACC`, and the adds of `CKSUM` (`43_composite_sequences.md` R93, R94).
-/

namespace Sys2Proof.Machine

/-! ### A sequence and one more word -/

theorem runWords_concat {ws : List CmdWord} {w : CmdWord} {s t u : State} {rs : List Response}
    (hws : runWords ws s = .next (t, rs)) (hw : executeWord w t = .next u) :
    runWords (ws ++ [w]) s = .next (u, rs ++ u.rsp.toList) := by
  induction ws generalizing s rs with
  | nil =>
    cases hws
    exact (runWords_cons hw).trans (by simp [runWords])
  | cons v vs ih =>
    obtain ⟨s', hs'⟩ := executeWord_next_of_runWords hws
    obtain ⟨rs', hrest⟩ := runWords_cons_next hws hs'
    rw [runWords_cons hs', hrest] at hws
    cases hws
    rw [List.cons_append, runWords_cons hs', ih hrest, List.append_assoc]

theorem runInstrs_concat {is : List Instr} {i : Instr} {s t u : State} {rs : List Response}
    (his : runInstrs is s = .next (t, rs)) (hi : exec i t = .next u) :
    runInstrs (is ++ [i]) s = .next (u, rs ++ u.rsp.toList) := by
  rw [runInstrs, List.map_append]
  exact runWords_concat his ((executeWord_of_decode (decode_encode i) t).trans hi)

/-! ### The words that count towards `ACC` -/

/-- Words that do not write `ACC` do not matter to the bytes it sums. -/
theorem addedSinceClear_filter (ws : List CmdWord) (before : List Byte) :
    addedSinceClear (ws.filter writesAcc) before = addedSinceClear ws before := by
  induction ws generalizing before with
  | nil => rfl
  | cons w ws ih =>
    rw [List.filter_cons]
    obtain hd | ⟨b, hd⟩ | hw := writesAcc_cases w
    · rw [if_pos (by simp [writesAcc, hd]), addedSinceClear_of_ckClr _ _ hd, addedSinceClear_of_ckClr _ _ hd, ih]
    · rw [if_pos (by simp [writesAcc, hd]), addedSinceClear_of_ckAdd _ _ hd, addedSinceClear_of_ckAdd _ _ hd, ih]
    · rw [if_neg (by simp [hw]), addedSinceClear_of_not_writesAcc _ _ hw, ih]

theorem addedSinceClear_ckAdds (bytes before : List Byte) :
    addedSinceClear ((bytes.map Instr.ckAdd).map encode) before = before ++ bytes := by
  induction bytes generalizing before with
  | nil => exact (List.append_nil before).symm
  | cons b bytes ih =>
    rw [List.map_cons, List.map_cons, addedSinceClear_of_ckAdd _ _ (decode_encode (.ckAdd b)), ih,
      List.append_assoc, List.singleton_append]

theorem addedSinceClear_cksumAdds (bytes before : List Byte) :
    addedSinceClear ((cksumAdds bytes).map encode) before = bytes := by
  rw [cksumAdds, List.map_cons, addedSinceClear_of_ckClr _ _ (decode_encode .ckClr), addedSinceClear_ckAdds,
    List.nil_append]

/-! ### `CKSUM` and `CKSUMD` -/

/-- Each command of `CKSUM` but the last answers `Success`, and the adds leave the checksum. -/
theorem runInstrs_cksumAdds (bytes : List Byte) (s : State) :
    runInstrs (cksumAdds bytes) s
      = .next ({ s with acc := checksumByte bytes, rsp := some answerDone },
          List.replicate (bytes.length + 1) answerDone) := by
  cases bytes with
  | nil => exact runInstrs_cons (exec_ckClr_eq s) rfl
  | cons b bytes =>
    rw [cksumAdds, runInstrs_cons (exec_ckClr_eq s) (runInstrs_ckAdds b bytes _), zero_add]
    rfl

/-- Settles O48: the bytes that count are those of `CKSUM` whatever stands between its words
(`addedSinceClear_filter`), and `CKSUM` itself is `runInstrs_cksumAdds` and one `CK.RD`. -/
theorem cksumAnswersChecksum : Obligations.CksumAnswersChecksum := by
  refine ⟨fun bytes ws s hv hws => ?_, fun bytes s => ⟨_, runInstrs_concat (runInstrs_cksumAdds bytes s)
    (exec_ckRd_eq _), fun r hr => ?_⟩⟩
  · obtain ⟨t, rs, hrun, -, -⟩ := runWords_answers ws hv
    have hbefore : s.acc = checksumByte [s.acc] := by rw [checksumByte_cons, checksumByte_nil, add_zero]
    have hacc : t.acc = checksumByte bytes := by
      rw [runWords_acc_checksum ws hbefore hrun, ← addedSinceClear_filter, hws, addedSinceClear_cksumAdds]
    refine ⟨_, _, runWords_concat hrun ((executeWord_of_decode (decode_encode .ckRd) t).trans (exec_ckRd_eq t)), ?_,
      hacc⟩
    rw [← hacc]
    exact List.getLast?_concat
  · obtain hadd | hread := List.mem_append.1 hr
    · rw [List.eq_of_mem_replicate hadd]
      rfl
    · rw [List.mem_singleton.1 hread]
      rfl

/-- Settles O49: `runInstrs_cksumAdds` and one `CK.RDD`. -/
theorem cksumdAnswersDigits : Obligations.CksumdAnswersDigits := fun bytes s =>
  ⟨_, runInstrs_concat (runInstrs_cksumAdds bytes s) (exec_ckRdd_eq _)⟩

end Sys2Proof.Machine

/-!
The window as the host fills and reads it (O50 to O52): `FB.PUT`, `FB.GET`, and the sum of its cells
(`43_composite_sequences.md` R95, R96, R98).
-/

namespace Sys2Proof.Machine

/-! ### `FB.PUT` -/

theorem fbPut_cons (b : Byte) (bytes : List Byte) : fbPut (b :: bytes) = .fbApp b :: fbPut bytes := rfl

/-- What `FB.PUT` leaves: the bytes for which there is room are behind the held ones, all else but the response is as
before. -/
theorem runInstrs_fbPut (bytes : List Byte) {s : State} (hv : s.Valid) {room : Nat}
    (hroom : room = min bytes.length (s.config.capacity - s.len.toNat)) :
    ∃ t, runInstrs (fbPut bytes) s
        = .next (t, List.replicate room answerDone
            ++ List.replicate (bytes.length - room) (answerError .bufferFull))
      ∧ t.window = s.window ++ bytes.take room
      ∧ t.acc = s.acc ∧ t.config = s.config ∧ t.port = s.port ∧ t.Valid := by
  induction bytes generalizing s room with
  | nil =>
    cases hroom.trans (Nat.zero_min _)
    exact ⟨s, rfl, (List.append_nil _).symm, rfl, rfl, rfl, hv⟩
  | cons b bytes ih =>
    rw [List.length_cons] at hroom
    obtain hlt | hfull := hv.len_le.lt_or_eq
    · obtain ⟨k, rfl⟩ : ∃ k, room = k + 1 := ⟨room - 1, by omega⟩
      have hrest : k = min bytes.length (s.config.capacity - (s.appendCell b).len.toNat) := by
        rw [hv.appendCell_len b hlt]
        omega
      obtain ⟨t, hrun, hwindow, hframe⟩ := ih (s := { s.appendCell b with rsp := some answerDone })
        ((hv.appendCell b hlt).of_window rfl rfl rfl) hrest
      refine ⟨t, ?_, ?_, hframe⟩
      · rw [fbPut_cons, runInstrs_cons ((exec_fbApp b s).trans (execFbApp_room b hlt)) hrun, List.length_cons,
          Nat.add_sub_add_right]
        rfl
      · rw [hwindow, List.take_succ_cons]
        exact (congrArg (· ++ _) (hv.appendCell_window b)).trans (List.append_assoc _ _ _)
    · obtain rfl : room = 0 := by omega
      obtain ⟨t, hrun, hwindow, hframe⟩ := ih (s := { s with rsp := some (answerError .bufferFull) })
        (hv.of_window rfl rfl rfl) (room := 0) (by simp [hfull])
      refine ⟨t, ?_, hwindow, hframe⟩
      rw [fbPut_cons, runInstrs_cons ((exec_fbApp b s).trans (execFbApp_full b hfull)) hrun]
      rfl

/-- Settles O50: `runInstrs_fbPut`. -/
theorem fbPutAppendsInOrder : Obligations.FbPutAppendsInOrder := by
  intro bytes s hv
  obtain ⟨t, hrun, hwindow, hacc, -, -, hvt⟩ := runInstrs_fbPut bytes hv rfl
  exact ⟨t, _, rfl, hrun, hwindow, hacc, hvt⟩

/-! ### `FB.GET` -/

theorem exec_fbGet_held {s : State} {start k : Nat} {b : Byte} (hlt : start + k < s.len.toNat)
    (hr : s.mem.read (start + k) = some b) : exec (fbGet start k) s = .next { s with rsp := some (answerByte b) } := by
  have hk : (countByte (start + k)).toNat = start + k := countByte_toNat_of_lt (hlt.trans s.len.isLt)
  exact execFbRdb_held _ (hk.symm ▸ hlt) (hk.symm ▸ hr)

theorem exec_fbGet_refused {s : State} {start k : Nat} (hle : s.len.toNat ≤ start + k) (hbyte : start + k ≤ 255) :
    exec (fbGet start k) s = .next { s with rsp := some (answerError .indexOutOfRange) } := by
  have hk : (countByte (start + k)).toNat = start + k := countByte_toNat_of_lt (Nat.lt_succ_of_le hbyte)
  exact execFbRdb_refused _ (hk.symm ▸ hle)

/-- Settles O51: the markers stand at the ends of the span, and every cell below `LEN` holds a byte. -/
theorem fbGetReadsTheSpan : Obligations.FbGetReadsTheSpan := by
  intro s start stop hv hd
  obtain ⟨⟨hstart, hsof, -⟩, hlt, hstop, heof, -⟩ := detect_eq_found_iff.1 hd
  obtain ⟨-, -, hbyte⟩ := found_bounds hd
  have hlast : start + (stop - start) = stop := Nat.add_sub_of_le hlt.le
  refine ⟨Nat.le_of_lt_succ hbyte, exec_fbGet_held hstart hsof, ?_, fun k hk => ?_, fun k => exec_fbGet_refused⟩
  · exact exec_fbGet_held (hlast.symm ▸ hstop) (hlast.symm ▸ heof)
  · obtain ⟨b, hb⟩ := hv.read_isSome hk
    exact ⟨b, hb, exec_fbGet_held hk hb⟩

/-! ### The sum of the cells -/

theorem cellsFrom_succ {s : State} (hv : s.Valid) {k : Nat} {b : Byte} (hr : s.mem.read k = some b) (n : Nat) :
    cellsFrom s k (n + 1) = b :: cellsFrom s (k + 1) n := by
  obtain ⟨hk, hb⟩ := List.getElem?_eq_some_iff.1 ((hv.read_eq k).symm.trans hr)
  rw [cellsFrom, List.drop_eq_getElem_cons hk, hb, List.take_succ_cons]
  rfl

/-- The loop over held cells adds their bytes, and then goes on behind them. -/
theorem addCells_add_held (ending : State → Host.Outcome State Fault Refusal) (more : Nat) {held k : Nat} {s : State}
    (hv : s.Valid) (hrsp : s.rsp = some answerDone) (hheld : held ≤ s.len.toNat - k) :
    addCells k (held + more) ending s
      = addCells (k + held) more ending { s with acc := s.acc + checksumByte (cellsFrom s k held) } := by
  induction held generalizing k s with
  | zero => rw [Nat.zero_add, cellsFrom, List.take_zero, checksumByte_nil, add_zero s.acc, add_zero k]
  | succ held ih =>
    have hk : k < s.len.toNat := by omega
    have hbehind : k + 1 + held = k + (held + 1) := by omega
    obtain ⟨b, hb⟩ := hv.read_isSome hk
    rw [Nat.succ_add, addCells_held ending hk hb, addMod256_eq_add, ← hrsp,
      ih (s := { s with acc := s.acc + b }) (hv.of_window rfl rfl rfl) hrsp (by simp only; omega), cellsFrom_succ hv hb,
      checksumByte_cons, ← add_assoc s.acc, hbehind]
    rfl

section

variable {s : State} {a b : Nat} (hv : s.Valid) (hab : a ≤ b) (read : Instr)
include hv hab

theorem sumWindowBy_held (hb : b < s.len.toNat) :
    sumWindowBy read a b s
      = exec read { s with acc := checksumByte (cellsFrom s a (b - a + 1)), rsp := some answerDone } := by
  have hloop := addCells_add_held (exec read) 0 (held := b - a + 1) (k := a)
    (s := { s with acc := 0, rsp := some answerDone }) (hv.of_window rfl rfl rfl) rfl (by simp only; omega)
  rw [zero_add, addCells_zero, Nat.add_zero, ← Nat.sub_add_comm hab] at hloop
  rw [← Nat.sub_add_comm hab]
  exact hloop

/-- The loop ends at its first refused read, at `LEN` or, where the range begins above it, at once. -/
theorem sumWindowBy_refused (hb : s.len.toNat ≤ b) (hbyte : b ≤ 255) :
    sumWindowBy read a b s
      = .next { s with acc := checksumByte (cellsFrom s a (s.len.toNat - a)),
                       rsp := some (answerError .indexOutOfRange) } := by
  obtain ⟨rest, hrest⟩ : ∃ rest, b + 1 - a = s.len.toNat - a + (rest + 1) := ⟨b - a - (s.len.toNat - a), by omega⟩
  have hloop := addCells_add_held (exec read) (rest + 1) (s := { s with acc := 0, rsp := some answerDone })
    (k := a) (hv.of_window rfl rfl rfl) rfl le_rfl
  rw [zero_add, addCells_refused rest _ (by simp only; omega) (by simp only; omega), ← hrest] at hloop
  exact hloop

end

/-- Settles O52: by whether the last cell of the range is held. -/
theorem sumOfWindowCells : Obligations.SumOfWindowCells := by
  refine fun s a b hv hab => ⟨fun hb => ⟨_, rfl, ?_, ?_⟩, fun hb hbyte => ⟨_, rfl, ?_, ?_⟩⟩
  · exact (sumWindowBy_held hv hab .ckRd hb).trans (exec_ckRd_eq _)
  · exact (sumWindowBy_held hv hab .ckRdd hb).trans (exec_ckRdd_eq _)
  · exact sumWindowBy_refused hv hab .ckRd hb hbyte
  · exact sumWindowBy_refused hv hab .ckRdd hb hbyte

end Sys2Proof.Machine

/-!
The wire frame (O53): what detection finds in a window that is one frame, and the checksum field of the frame
(`43_composite_sequences.md` R99, R101).
-/

namespace Sys2Proof.Machine

theorem digitByte_ne_eof {d : Nat} (h : d ≤ 9) : digitByte d ≠ eof := by
  intro heq
  have hn := congrArg BitVec.toNat heq
  rw [digitByte_toNat h] at hn
  have heof : eof.toNat = 0x21 := rfl
  omega

/-- What stands between the markers of a wire frame: the body and its checksum field. -/
def frameContent (body : List Byte) : List Byte :=
  body ++ [(dec3 (checksumByte body)).1, (dec3 (checksumByte body)).2.1, (dec3 (checksumByte body)).2.2]

theorem frameContent_length (body : List Byte) : (frameContent body).length = body.length + 3 := List.length_append

theorem wireFrame_eq (body : List Byte) : wireFrame body = sof :: (frameContent body ++ [eof]) := by
  simp [wireFrame, frameContent]

theorem wireFrame_length (body : List Byte) : (wireFrame body).length = body.length + 5 := by simp [wireFrame]

/-- A digit is no `!`, so a body without `!` makes a frame whose first `!` is its last byte. -/
theorem eof_not_mem_frameContent {body : List Byte} (h : eof ∉ body) : eof ∉ frameContent body := by
  have hhundreds := digitByte_ne_eof ((hundreds_le_two (checksumByte body)).trans (by omega))
  have htens := digitByte_ne_eof (decimal_digit_le_nine ((checksumByte body).toNat / 10))
  have hones := digitByte_ne_eof (decimal_digit_le_nine (checksumByte body).toNat)
  simp [frameContent, dec3, h, hhundreds.symm, htens.symm, hones.symm]

section

variable {s : State} (hv : s.Valid)
include hv

/-- A window that begins with `#` and has its only `!` at its end is one span. -/
theorem detect_of_window_framed {content : List Byte} (hw : s.window = sof :: (content ++ [eof]))
    (hc : eof ∉ content) : detect s = .found 0 (content.length + 1) := by
  have hlen : s.len.toNat = content.length + 2 := by rw [← hv.window_length, hw]; simp
  refine detect_eq_found_iff.2 ⟨⟨by omega, ?_, fun i hi => absurd hi i.not_lt_zero⟩, by omega, by omega, ?_,
    fun j hj hj' => ?_⟩
  · rw [hv.read_eq, hw]; rfl
  · rw [hv.read_eq, hw, List.getElem?_cons_succ, List.getElem?_concat_length]
  · obtain ⟨i, rfl⟩ : ∃ i, j = i + 1 := ⟨j - 1, by omega⟩
    rw [hv.read_eq, hw, List.getElem?_cons_succ, List.getElem?_append_left (by omega)]
    exact fun h => hc (List.mem_of_getElem? h)

/-- The three bytes before the last of a wire frame are the digits of the checksum of its body. -/
theorem frameChecksumRight_of_wireFrame {body : List Byte} (hne : body ≠ []) (hw : s.window = wireFrame body) :
    frameChecksumRight s 0 (body.length + 4) = true := by
  have hpos : 0 < body.length := List.length_pos_iff.2 hne
  have hcells : cellsFrom s (0 + 1) (body.length + 4 - 0 - 4) = body := by simp [cellsFrom, hw, wireFrame]
  have hdigit : ∀ i, s.mem.read (body.length + i + 1)
      = [(dec3 (checksumByte body)).1, (dec3 (checksumByte body)).2.1, (dec3 (checksumByte body)).2.2, eof][i]? := by
    intro i
    simp [hv.read_eq, hw, wireFrame, List.getElem?_append_right]
  rw [frameChecksumRight, hcells]
  simp [hdigit 0, hdigit 1, hdigit 2]
  omega

end

/-- Settles O53: the frame has room, so `FB.PUT` appends all of it (`runInstrs_fbPut`); the window is then the frame,
and its trim leaves the empty window. -/
theorem wireFrameIsDetectedAndRight : Obligations.WireFrameIsDetectedAndRight := by
  intro body s hv hlen hne hbody hcap
  have hlength := wireFrame_length body
  have hzero : s.len.toNat = 0 := by rw [hlen]; rfl
  obtain ⟨t, hrun, hwindow, hacc, hconfig, hport, hvt⟩ := runInstrs_fbPut (wireFrame body) hv
    (room := body.length + 5) (by omega)
  have hempty : s.window = [] := by rw [State.window, hv.mem_of_len_zero hlen, List.map_nil]
  rw [hempty, List.nil_append, List.take_of_length_le hlength.le] at hwindow
  have hd : detect t = .found 0 (body.length + 4) := by
    rw [detect_of_window_framed hvt (hwindow.trans (wireFrame_eq body)) (eof_not_mem_frameContent hbody),
      frameContent_length]
  obtain ⟨hspan, hstop, -⟩ := answerSpan_toNat hd
  refine ⟨t, _, hrun, fun r hr => ?_, hd, frameChecksumRight_of_wireFrame hvt hne hwindow,
    answerSpan 0 (body.length + 4), ?_, rfl, hspan, hstop, rfl⟩
  · rw [hlength, Nat.sub_self, List.replicate_zero, List.append_nil] at hr
    exact List.eq_of_mem_replicate hr
  · rw [execFbCon_found hd, State.lowerLen, hacc, hconfig, hport, Memory.eraseFrom_zero]
    rfl

end Sys2Proof.Machine

/-!
Responses and statuses (O15, O34): every word and every step of a state of the block has a next state, and the status
of a response is a function of the decoded word and the state before. `60_exceptions.md` R104, R105, R122.
-/

namespace Sys2Proof.Machine

/-! ### Every step has a next state -/

theorem onReset_of_valid {s : State} (hv : s.Valid) : onReset s = .next s.afterReset := by
  rw [onReset, if_pos hv.1]

theorem acceptCommand_hasNext {s : State} (hv : s.Valid) (p : PortSample) : ∃ t, acceptCommand p s = .next t := by
  unfold acceptCommand
  split
  · exact ⟨_, onReset_of_valid hv⟩
  · obtain ⟨t, ht, -⟩ := executeWord_cases hv p.cmd
    exact ⟨t, ht⟩

theorem portStep_hasNext {s : State} (hv : s.Valid) (p : PortSample) : ∃ t, portStep p s = .next t := by
  cases hr : p.rst with
  | true => exact ⟨_, (portStep_rst hr s).trans (onReset_of_valid hv)⟩
  | false =>
    rw [portStep_noRst hr, onState_valid hv]
    split
    · exact acceptCommand_hasNext hv p
    · exact ⟨_, rfl⟩

theorem step_hasNext {s : State} (hv : s.Valid) : ∃ t, step s = .next t := by
  cases hp : s.port with
  | nil => exact ⟨_, (step_nil hp).trans (onState_valid hv _)⟩
  | cons p rest =>
    rw [step_cons hp]
    exact portStep_hasNext (hv.withPort rest) p

/-! ### The status of a response -/

/-- The status that R104 gives a word, by what it decodes to and the state before it. -/
def answerStatus (d : Option Instr) (s : State) : Status :=
  match d with
  | none => .illegalCommand
  | some (.fbApp _) => if s.len.toNat = s.config.capacity then .bufferFull else .success
  | some (.fbRdb i) => if s.len.toNat ≤ i.toNat then .indexOutOfRange else .success
  | some .fbDet => (detect s).status
  | some .fbCon => (detect s).status
  | some _ => .success

/-- The states after a response with a given status, by R104's last column: an error changes nothing but the
response, except that `MissingEndOfFrame` empties the window. -/
inductive AnswersWith (s : State) : Status → State → Prop where
  | success (r : Response) (t : State) (hrsp : t.rsp = some r) (hr : r.status = .success) : AnswersWith s .success t
  | emptied : AnswersWith s .missingEndOfFrame
      { s with len := 0, mem := [], rsp := some (answerError .missingEndOfFrame) }
  | error (st : Status) (hsuccess : st ≠ .success) (hend : st ≠ .missingEndOfFrame) :
      AnswersWith s st { s with rsp := some (answerError st) }

theorem AnswersWith.rsp_status {s t : State} {st : Status} (h : AnswersWith s st t) :
    ∃ r, t.rsp = some r ∧ r.status = st := by
  cases h with
  | success r t hrsp hr => exact ⟨r, hrsp, hr⟩
  | emptied | error => exact ⟨_, rfl, rfl⟩

theorem AnswersWith.eq_of_missingEndOfFrame {s t : State} (h : AnswersWith s .missingEndOfFrame t) :
    t = { s with len := 0, mem := [], rsp := some (answerError .missingEndOfFrame) } := by
  cases h with
  | emptied => rfl
  | error _ _ hend => exact absurd rfl hend

theorem AnswersWith.eq_of_error {s t : State} {st : Status} (h : AnswersWith s st t) (hsuccess : st ≠ .success)
    (hend : st ≠ .missingEndOfFrame) : t = { s with rsp := some (answerError st) } := by
  cases h with
  | success => exact absurd rfl hsuccess
  | emptied => exact absurd rfl hend
  | error => rfl

theorem answerDetection_answersWith {f : Nat → State → State} {s t : State} (h : answerDetection f s = .next t) :
    AnswersWith s (detect s).status t := by
  cases hd : detect s with
  | empty =>
    cases (answerDetection_empty f hd).symm.trans h
    exact .error .emptyBuffer nofun nofun
  | noStart =>
    cases (answerDetection_noStart f hd).symm.trans h
    exact .error .missingStartOfFrame nofun nofun
  | noEnd =>
    cases (answerDetection_noEnd f hd).symm.trans h
    exact .emptied
  | found start stop =>
    cases (answerDetection_found f hd).symm.trans h
    exact .success _ _ rfl rfl

theorem exec_answersWith {i : Instr} {s t : State} (hv : s.Valid) (h : exec i s = .next t) :
    AnswersWith s (answerStatus (some i) s) t := by
  cases i with
  | nop | ckClr | ckAdd | ckRd | ckRdd | fbLen | fbRst =>
    cases h
    exact .success _ _ rfl rfl
  | fbApp b =>
    rw [answerStatus]
    obtain ⟨hfull, rfl⟩ | ⟨hroom, rfl⟩ := execFbApp_next hv h
    · rw [if_pos hfull]
      exact .error .bufferFull nofun nofun
    · rw [if_neg hroom.ne]
      exact .success _ _ rfl rfl
  | fbRdb k =>
    rw [answerStatus]
    obtain ⟨hk, rfl⟩ | ⟨b, hk, -, rfl⟩ := execFbRdb_next h
    · rw [if_pos hk]
      exact .error .indexOutOfRange nofun nofun
    · rw [if_neg (Nat.not_le.2 hk)]
      exact .success _ _ rfl rfl
  | fbDet => exact answerDetection_answersWith (f := fun _ t => t) h
  | fbCon => exact answerDetection_answersWith (f := fun a t => t.lowerLen a) h

theorem executeWord_answersWith {w : CmdWord} {s t : State} (hv : s.Valid) (h : executeWord w s = .next t) :
    AnswersWith s (answerStatus (decode w) s) t := by
  cases hd : decode w with
  | none =>
    cases (executeWord_of_reserved hd s).symm.trans h
    exact .error .illegalCommand nofun nofun
  | some i =>
    rw [executeWord_of_decode hd] at h
    exact exec_answersWith hv h

/-! ### The causes -/

theorem Detection.status_producible (d : Detection) : d.status.producible = true := by
  cases d <;> rfl

theorem answerStatus_producible (d : Option Instr) (s : State) : (answerStatus d s).producible = true := by
  cases d with
  | none => rfl
  | some i =>
    cases i with
    | nop | ckClr | ckAdd | ckRd | ckRdd | fbLen | fbRst => rfl
    | fbApp | fbRdb => rw [answerStatus]; split <;> rfl
    | fbDet | fbCon => exact (detect s).status_producible

/-- R104's table: each error status has its one cause, told by the decoded word, the window's length and the outcome
of detection. -/
theorem answerStatus_causes (d : Option Instr) (s : State) :
    (answerStatus d s = .missingStartOfFrame ↔ (d = some .fbDet ∨ d = some .fbCon) ∧ detect s = .noStart)
    ∧ (answerStatus d s = .missingEndOfFrame ↔ (d = some .fbDet ∨ d = some .fbCon) ∧ detect s = .noEnd)
    ∧ (answerStatus d s = .bufferFull ↔ (∃ b, d = some (.fbApp b)) ∧ s.len.toNat = s.config.capacity)
    ∧ (answerStatus d s = .emptyBuffer ↔ (d = some .fbDet ∨ d = some .fbCon) ∧ detect s = .empty)
    ∧ (answerStatus d s = .indexOutOfRange ↔ ∃ i, d = some (.fbRdb i) ∧ s.len.toNat ≤ i.toNat)
    ∧ (answerStatus d s = .illegalCommand ↔ d = none) := by
  cases d with
  | none => simp [answerStatus]
  | some i =>
    cases i with
    | nop | ckClr | ckAdd | ckRd | ckRdd | fbLen | fbRst => simp [answerStatus]
    | fbApp b => by_cases hfull : s.len.toNat = s.config.capacity <;> simp [answerStatus, hfull]
    | fbRdb k => by_cases hk : s.len.toNat ≤ k.toNat <;> simp [answerStatus, hk]
    | fbDet | fbCon => cases hd : detect s <;> simp [answerStatus, Detection.status, hd]

/-- Settles O15: `executeWord_cases` with `executeWord_answersWith`, and `step_hasNext`. -/
theorem everyCommandHasNextStateAndResponse : Obligations.EveryCommandHasNextStateAndResponse := by
  refine ⟨fun w s hv => ?_, fun i s hi => ?_, fun s => step_hasNext⟩
  · obtain ⟨t, ht, heffect⟩ := executeWord_cases hv w
    obtain ⟨r, hrsp, hr⟩ := (executeWord_answersWith hv ht).rsp_status
    exact ⟨t, r, ht, heffect.valid hv, hrsp, hr ▸ answerStatus_producible _ s⟩
  · exact (executeWord_of_decode (decode_encode (.fbRdb i)) s).trans (execFbRdb_refused i hi)

/-- Settles O34: the status of the response is `answerStatus`, whose causes are R104's once the outcome of detection is
read by its definition (`detectionMeetsItsDefinition`). -/
theorem statusReportsItsCause : Obligations.StatusReportsItsCause := by
  refine ⟨fun w s t r hv h hrsp => ?_, rfl, rfl, rfl, rfl, rfl, rfl, rfl⟩
  have hanswer := executeWord_answersWith hv h
  obtain ⟨r', hrsp', hr⟩ := hanswer.rsp_status
  cases hrsp.symm.trans hrsp'
  obtain ⟨hempty, hnoStart, hnoEnd, -⟩ := detectionMeetsItsDefinition s
  obtain ⟨hstart, hend, hfull, hnoData, hindex, hillegal⟩ := answerStatus_causes (decode w) s
  rw [← hr] at hanswer hstart hend hfull hnoData hindex hillegal
  exact ⟨by rw [hstart, hnoStart], by rw [hend, hnoEnd], hfull, by rw [hnoData, hempty], hindex, hillegal,
    hr ▸ answerStatus_producible _ s, fun hst => (hst ▸ hanswer).eq_of_missingEndOfFrame, hanswer.eq_of_error⟩

end Sys2Proof.Machine

/-!
Reset (O9, O11): a sample with `rst` high, and one whose command a rising `rst` abandons, leave the reset state; what
the commands answer there. `70_reset_and_hazards.md` R123, R124, R126.
-/

namespace Sys2Proof.Machine

/-! ### The samples that reset (R123) -/

theorem onReset_of_config {s : State} (hc : configWellFormed s.config = true) : onReset s = .next s.afterReset :=
  if_pos hc

theorem step_of_rst {s : State} {p : PortSample} {rest : List PortSample} (hc : configWellFormed s.config = true)
    (hp : s.port = p :: rest) (hr : p.rst = true) : step s = .next ({ s with port := rest } : State).afterReset := by
  rw [step_cons hp, portStep_rst hr]
  exact onReset_of_config hc

theorem step_of_rstBeforeRsp {s : State} {p : PortSample} {rest : List PortSample} (hv : s.Valid)
    (hp : s.port = p :: rest) (hr : p.rst = false) (hc : p.cmdValid = true) (hrsp : p.rstBeforeRsp = true) :
    step s = .next ({ s with port := rest } : State).afterReset := by
  have haccepted : accepted p = true := by simp [accepted, cmdReady, hr, hc]
  rw [step_cons hp, portStep_noRst hr, onState_valid (hv.withPort rest), if_pos haccepted, acceptCommand, if_pos hrsp]
  exact onReset_of_valid (hv.withPort rest)

theorem not_accepted_of_rst {p : PortSample} (hr : p.rst = true) : cmdReady p = false ∧ accepted p = false := by
  simp [cmdReady, accepted, hr]

/-- Without a reset and without an accepted command a step changes no register and no cell. -/
theorem step_unaccepted_frame {s t : State} (h : step s = .next t)
    (hno : ∀ p, s.port.head? = some p → p.rst = false ∧ accepted p = false) :
    t.acc = s.acc ∧ t.len = s.len ∧ t.mem = s.mem := by
  have hhead : ∀ {p q}, s.port = p :: q → p.rst = false ∧ accepted p = false := fun hp => hno _ (by rw [hp]; rfl)
  obtain ⟨p, q, hp, hreset, -⟩ | ⟨p, q, -, hp, haccepted, -⟩ | ⟨-, q, rfl⟩ := step_cases h
  · simp [hhead hp] at hreset
  · simp [hhead hp] at haccepted
  · exact ⟨rfl, rfl, rfl⟩

/-- Settles O9: the two samples that reset; the state they leave is one of the block, so the next sample's command is
executed in it (`step_presented`); and by `step_cases` no other event changes the state. -/
theorem resetReplacesTheState : Obligations.ResetReplacesTheState := by
  refine ⟨fun s p rest hc hp hr => ⟨step_of_rst hc hp hr, not_accepted_of_rst hr⟩,
    fun s p rest => step_of_rstBeforeRsp, fun s i rest hc hp => ⟨_, step_of_rst hc hp rfl, ?_⟩,
    fun s t => step_unaccepted_frame⟩
  have hvalid : ({ s with port := presented (encode i) :: rest } : State).afterReset.Valid := State.afterReset_valid hc
  exact (step_presented hvalid rfl).trans (executeWord_of_decode (decode_encode i) _)

/-! ### Straight after reset (R126) -/

/-- Settles O11: after reset `ACC` and `LEN` are 0, so detection finds an empty window and no index is below `LEN`; and
`CK.CLR` with `FB.RST` sets each of the three parts of the state to its reset value. -/
theorem answersAfterReset : Obligations.AnswersAfterReset := by
  refine ⟨fun s => ⟨exec_ckRd_eq _, rfl, ?_, fun i => ?_⟩, fun s => ?_⟩
  · exact (exec_fbDet _).trans (answerDetection_empty _ (detect_of_len_zero rfl))
  · exact execFbRdb_refused i (Nat.zero_le _)
  · exact runInstrs_cons (exec_ckClr_eq s) (runInstrs_cons ((exec_fbRst _).trans (execFbRst_eq _)) rfl)

end Sys2Proof.Machine

/-!
The hazards of the window (O43 to O45): a detection in the middle of an arrival loses the frame, and a full window stays
as it is through every word that does not lower `LEN`. `70_reset_and_hazards.md` R129 to R131.
-/

namespace Sys2Proof.Machine

/-! ### Detection in the middle of an arrival (R129) -/

theorem appendsStart_fbPut {bytes : List Byte} (h : sof ∉ bytes) :
    ∀ w ∈ (fbPut bytes).map encode, appendsStart w = false := by
  simp only [fbPut, List.map_map, List.mem_map, Function.comp_apply]
  rintro w ⟨b, hb, rfl⟩
  have hne : b ≠ sof := fun hsof => h (hsof ▸ hb)
  simp [appendsStart, decode_encode, hne]

theorem exec_detecting_of_noEnd {i : Instr} {s : State} (hi : i = .fbDet ∨ i = .fbCon) (hd : detect s = .noEnd) :
    exec i s = .next { s with len := 0, mem := [], rsp := some (answerError .missingEndOfFrame) } := by
  obtain rfl | rfl := hi
  · exact (exec_fbDet s).trans (answerDetection_noEnd _ hd)
  · exact (exec_fbCon s).trans (answerDetection_noEnd _ hd)

/-- Settles O43: the emptied window has no `#`, and none comes in with the later bytes (`runWords_no_sof`). -/
theorem earlyDetectionLosesTheFrame : Obligations.EarlyDetectionLosesTheFrame := by
  intro s i later hv hd hi hlater
  have hexec := exec_detecting_of_noEnd hi hd
  obtain ⟨u, rs, hrun, hu, -⟩ := runWords_no_sof ((fbPut later).map encode) ((exec_wordEffect hv hexec).valid hv)
    nofun (appendsStart_fbPut hlater)
  exact ⟨_, u, rs, hexec, rfl, hrun, detect_empty_or_noStart_of_no_sof hu⟩

/-! ### A full window (R131) -/

/-- No window of the same block is longer than a full one. -/
theorem State.Extends.window_of_full {s t : State} (h : s.Extends t) (hs : s.Valid) (ht : t.Valid)
    (hconfig : t.config = s.config) (hfull : s.len.toNat = s.config.capacity) : t.len = s.len ∧ t.mem = s.mem := by
  obtain ⟨hle, hread⟩ := h
  have hlen : t.len.toNat = s.len.toNat := (ht.len_le.trans_eq (hconfig ▸ hfull.symm)).antisymm hle
  refine ⟨BitVec.eq_of_toNat_eq hlen, Memory.ext_of_read ht.indices (hlen ▸ hs.indices) fun i => ?_⟩
  obtain hi | hi := lt_or_ge i s.len.toNat
  · exact hread i hi
  · rw [(ht.read_none_iff i).2 (hlen ▸ hi), (hs.read_none_iff i).2 hi]

/-- The induction over words from a full window: when no word shortens this window, it stays as it is. -/
theorem runWords_window_of_full (ws : List CmdWord) {s : State} (hv : s.Valid) (hfull : s.len.toNat = s.config.capacity)
    {good : CmdWord → Prop}
    (hgood : ∀ {w t u}, good w → t.Valid → t.mem = s.mem → WordEffect w t u → t.Extends u)
    (hws : ∀ w ∈ ws, good w) :
    ∃ t rs, runWords ws s = .next (t, rs) ∧ t.config = s.config ∧ t.len = s.len ∧ t.mem = s.mem := by
  obtain ⟨t, rs, hrun, -, hsame⟩ := runWords_induction
    (P := fun t => t.config = s.config ∧ t.len = s.len ∧ t.mem = s.mem) (good := good)
    (fun w t u hw hvt ⟨hconfig, hlen, hmem⟩ _ heffect => by
      have hconfig' := heffect.config_port.1
      obtain ⟨hlen', hmem'⟩ := (hgood hw hvt hmem heffect).window_of_full hvt (heffect.valid hvt) hconfig'
        (by rw [hlen, hconfig, hfull])
      exact ⟨hconfig'.trans hconfig, hlen'.trans hlen, hmem'.trans hmem⟩)
    ws s hv ⟨rfl, rfl, rfl⟩ hws
  exact ⟨t, rs, hrun, hsame⟩

theorem WordEffect.extends_of_not_mayLowerLen {w : CmdWord} {s t : State} (hv : s.Valid) (h : WordEffect w s t)
    (hw : mayLowerLen w = false) : s.Extends t := by
  obtain hext | hd | ⟨hd | hd, -⟩ | ⟨hd, -⟩ := h.extends_or_lowers hv
  · exact hext
  all_goals simp [mayLowerLen, hd] at hw

/-- Settles O44: words that cannot lower `LEN` only extend a window (`WordEffect.extends_of_not_mayLowerLen`), and a
full one cannot be extended. -/
theorem fullWindowStaysFull : Obligations.FullWindowStaysFull := by
  intro ws s hv hfull hws
  obtain ⟨t, rs, hrun, hconfig, hlen, hmem⟩ := runWords_window_of_full ws hv hfull
    (fun hw hvt _ heffect => heffect.extends_of_not_mayLowerLen hvt hw) hws
  exact ⟨t, rs, hrun, hlen, hmem, fun b => execFbApp_full b (by rw [hlen, hconfig, hfull])⟩

/-! ### A full window without a start marker (R130) -/

theorem execFbDet_of_no_sof {s : State} (hpos : 0 < s.len.toNat) (h : ∀ i, s.mem.read i ≠ some sof) :
    exec .fbDet s = .next { s with rsp := some (answerError .missingStartOfFrame) } :=
  (exec_fbDet s).trans
    (answerDetection_noStart _ (detect_of_startIndex_none hpos (startIndex_eq_none.2 fun i _ => h i)))

/-- Settles O45: while there is no `#` only `FB.RST` can lower `LEN` (`WordEffect.extends_of_no_sof`), and the full
window takes no `#` in. -/
theorem wedgedWindowNeedsReset : Obligations.WedgedWindowNeedsReset := by
  rintro ws s hv ⟨hfull, hsof⟩ hws
  obtain ⟨t, rs, hrun, hconfig, hlen, hmem⟩ := runWords_window_of_full ws hv hfull
    (fun hw hvt hmem heffect => heffect.extends_of_no_sof hvt (hmem ▸ hsof) hw) hws
  have hpos : 0 < t.len.toNat := by rw [hlen, hfull]; exact hv.config_ok.1
  exact ⟨t, rs, hrun, hlen, hmem, fun b => execFbApp_full b (by rw [hlen, hconfig, hfull]),
    execFbDet_of_no_sof hpos (hmem ▸ hsof), execFbRst_eq t⟩

end Sys2Proof.Machine
